-- ==== Sys2Proof/Word.lean ====
section
/-! DEFINITION. The word, byte and register-index types (00_scope.md R6, R7; 10_state.md R30). -/

namespace Sys2Proof

/-- A word: the 16-bit unit of storage of memory cells, registers, stack entries and the pc (R6, R12). -/
abbrev Word := BitVec 16

/-- A byte of an image; bytes meet words only at load and save (R67, R68). -/
abbrev Byte := BitVec 8

/-- The index of one of the eight registers: bits 2..0 of a register tag (R30, R98). -/
abbrev RegIx := BitVec 3

end Sys2Proof
end

