-- ==== Sys2Proof/Config.lean ====
section
/-! DEFINITION. The parameters of 00_scope.md R6 whose value the spec fixes. The OPEN ones are arguments or plain data
elsewhere: STACK_DEPTH is the field stackDepth of State (log entry 1); PATCH_ADDR0, PATCH_VAL0, PATCH_ADDR1 and PATCH_VAL1
are arguments of the host's patch action (log entry 7); LINE_TERMINATOR and FAIL_STATUS are arguments of the host-side
functions that use them (log entry 10). Where the spec bounds an OPEN parameter, its type here holds the bound. The spec leaves no result undefined, so there is no opaque free value here. -/

namespace Sys2Proof

/-- MODULUS, 2^15: the reduction of ADD and MULT (R6, R200, R201). -/
abbrev Config.modulus : Nat := 32768

/-- REG_TAG_BASE: the raw word that names register 0 (R6, R98). -/
abbrev Config.regTagBase : Nat := 32768

/-- NUM_REGS (R6, R30). -/
abbrev Config.numRegs : Nat := 8

/-- MAX_IMAGE_WORDS (R6, R305; decision D2). -/
abbrev Config.maxImageWords : Nat := 32768

/-- STACK_DEPTH: a positive number of entries, or none for unbounded (R6; decision D10). The value is OPEN. -/
abbrev Config.StackDepth := Option { d : Nat // 0 < d }

/-- FAIL_STATUS: the exit status of a faulted run, any number but 0 (R6, R274; decision D19). The value is OPEN. -/
abbrev Config.FailStatus := { n : Nat // n ≠ 0 }

/-- The low 15 bits, which NOT keeps (R205). -/
abbrev Config.dataMask : Word := 0x7FFF#16

end Sys2Proof
end

