-- ==== Sys2Proof/Syntax.lean ====
section
/-! DEFINITION. The 22 instructions with their raw operand words (30_encoding.md R91, R94). -/

namespace Sys2Proof

/-- A source operand word (class S, R96(a)): raw, resolved when the instruction runs (R97). -/
abbrev Src := Word

/-- A destination operand word (class D, R96(b)): raw. It is never resolved; WriteThrough reads it again from its slot
(R64, R99). -/
abbrev Dst := Word

/-- One constructor per row of the opcode map R94, its operands a, b, c in order. -/
inductive Instr where
  /-- code 0, R140 -/
  | halt
  /-- code 1, R150 -/
  | set (a : Dst) (b : Src)
  /-- code 2, R151 -/
  | push (a : Src)
  /-- code 3, R152 -/
  | pop (a : Dst)
  /-- code 4, R170 -/
  | eq (a : Dst) (b c : Src)
  /-- code 5, R171 -/
  | gt (a : Dst) (b c : Src)
  /-- code 6, R180 -/
  | jmp (a : Src)
  /-- code 7, R181 -/
  | jt (a b : Src)
  /-- code 8, R182 -/
  | jf (a b : Src)
  /-- code 9, R200 -/
  | add (a : Dst) (b c : Src)
  /-- code 10, R201 -/
  | mult (a : Dst) (b c : Src)
  /-- code 11, R202 -/
  | mod (a : Dst) (b c : Src)
  /-- code 12, R203 -/
  | and (a : Dst) (b c : Src)
  /-- code 13, R204 -/
  | or (a : Dst) (b c : Src)
  /-- code 14, R205 -/
  | not (a : Dst) (b : Src)
  /-- code 15, R230 -/
  | rmem (a : Dst) (b : Src)
  /-- code 16, R231; a is a source whose value is an address -/
  | wmem (a b : Src)
  /-- code 17, R183 -/
  | call (a : Src)
  /-- code 18, R184 -/
  | ret
  /-- code 19, R240 -/
  | out (a : Src)
  /-- code 20, R241; the mnemonic IN is a reserved word of Lean -/
  | inp (a : Dst)
  /-- code 21, R141 -/
  | noop
  deriving DecidableEq, Repr

end Sys2Proof
end

