-- ==== Sys2Proof/WellFormed.lean ====
section
/-! DEFINITION. Which instructions are free of illegal operand words. Every instruction of Instr has an encoding and
decodes; an ill-formed one is one that must fault with INVALID_OPERAND (30_encoding.md R102). -/

namespace Sys2Proof

/-- A source operand word is legal when it is a literal or a register tag, that is at most 32775 (R97, R102). -/
def srcLegal (w : Src) : Bool := w.toNat ≤ 32775

/-- The source operand words of an instruction, in slot order (the S columns of R94). -/
def Instr.sources : Instr → List Src
  | .halt | .ret | .noop | .pop _ | .inp _ => []
  | .push a | .jmp a | .call a | .out a => [a]
  | .set _ b | .not _ b | .rmem _ b => [b]
  | .jt a b | .jf a b | .wmem a b => [a, b]
  | .eq _ b c | .gt _ b c | .add _ b c | .mult _ b c | .mod _ b c | .and _ b c | .or _ b c => [b, c]

/-- Every source operand word is legal (R102). A destination descriptor may be any word (R99). -/
def Instr.wellFormed (i : Instr) : Bool := i.sources.all srcLegal

end Sys2Proof
end

