-- ==== Sys2Proof/Decode.lean ====
section
/-! DEFINITION. Decoding and encoding: the opcode map of 30_encoding.md R94, instruction length (R104), and how words lie in
bytes (20_memory.md R67). Decoding is total and rejects by name. -/

namespace Sys2Proof

/-- Why a list of words or bytes is no instruction. -/
inductive DecodeError where
  /-- the opcode word is none of 0..21 (R101) -/
  | invalidOpcode (w : Word)
  /-- the list ends before the instruction's last word -/
  | truncated
  deriving DecidableEq, Repr

/-- The arity column of R94; none for a word that is no opcode (R93, R101). -/
def arityOf (op : Word) : Option Nat :=
  match op.toNat with
  | 0 => some 0
  | 1 => some 2
  | 2 => some 1
  | 3 => some 1
  | 4 => some 3
  | 5 => some 3
  | 6 => some 1
  | 7 => some 2
  | 8 => some 2
  | 9 => some 3
  | 10 => some 3
  | 11 => some 3
  | 12 => some 3
  | 13 => some 3
  | 14 => some 2
  | 15 => some 2
  | 16 => some 2
  | 17 => some 1
  | 18 => some 0
  | 19 => some 1
  | 20 => some 1
  | 21 => some 0
  | _ => none

/-- Format F1: one operand word (R92). -/
def operand1 (f : Word → Instr) : List Word → Except DecodeError (Instr × List Word)
  | a :: rest => .ok (f a, rest)
  | _ => .error .truncated

/-- Format F2: two operand words (R92). -/
def operand2 (f : Word → Word → Instr) : List Word → Except DecodeError (Instr × List Word)
  | a :: b :: rest => .ok (f a b, rest)
  | _ => .error .truncated

/-- Format F3: three operand words (R92). -/
def operand3 (f : Word → Word → Word → Instr) : List Word → Except DecodeError (Instr × List Word)
  | a :: b :: c :: rest => .ok (f a b c, rest)
  | _ => .error .truncated

/-- The opcode map R94: the instruction whose opcode word is `op` and whose operand words come next in `ws`, with the
words left over. The opcode word is matched raw, on all its 16 bits (R93). -/
def decodeOp (op : Word) (ws : List Word) : Except DecodeError (Instr × List Word) :=
  match op.toNat with
  | 0 => .ok (.halt, ws)
  | 1 => operand2 .set ws
  | 2 => operand1 .push ws
  | 3 => operand1 .pop ws
  | 4 => operand3 .eq ws
  | 5 => operand3 .gt ws
  | 6 => operand1 .jmp ws
  | 7 => operand2 .jt ws
  | 8 => operand2 .jf ws
  | 9 => operand3 .add ws
  | 10 => operand3 .mult ws
  | 11 => operand3 .mod ws
  | 12 => operand3 .and ws
  | 13 => operand3 .or ws
  | 14 => operand2 .not ws
  | 15 => operand2 .rmem ws
  | 16 => operand2 .wmem ws
  | 17 => operand1 .call ws
  | 18 => .ok (.ret, ws)
  | 19 => operand1 .out ws
  | 20 => operand1 .inp ws
  | 21 => .ok (.noop, ws)
  | _ => .error (.invalidOpcode op)

/-- Decodes the instruction at the head of a list of words and gives the words after it (R104). -/
def decode : List Word → Except DecodeError (Instr × List Word)
  | [] => .error .truncated
  | op :: ws => decodeOp op ws

/-- The code column of R94. -/
def Instr.opcode : Instr → Word
  | .halt => 0
  | .set .. => 1
  | .push .. => 2
  | .pop .. => 3
  | .eq .. => 4
  | .gt .. => 5
  | .jmp .. => 6
  | .jt .. => 7
  | .jf .. => 8
  | .add .. => 9
  | .mult .. => 10
  | .mod .. => 11
  | .and .. => 12
  | .or .. => 13
  | .not .. => 14
  | .rmem .. => 15
  | .wmem .. => 16
  | .call .. => 17
  | .ret => 18
  | .out .. => 19
  | .inp .. => 20
  | .noop => 21

/-- The operand words w1, w2, w3 in slot order (R91). -/
def Instr.operands : Instr → List Word
  | .halt | .ret | .noop => []
  | .push a | .pop a | .jmp a | .call a | .out a | .inp a => [a]
  | .set a b | .jt a b | .jf a b | .not a b | .rmem a b | .wmem a b => [a, b]
  | .eq a b c | .gt a b c | .add a b c | .mult a b c | .mod a b c | .and a b c | .or a b c => [a, b, c]

/-- The words of an instruction: its opcode word, then its operand words (R91, R92). -/
def encode (i : Instr) : List Word := i.opcode :: i.operands

/-- The low byte of a word, the first of its two bytes (R67). -/
def lowByte (w : Word) : Byte := BitVec.ofNat 8 (w.toNat % 256)

/-- The high byte of a word (R67). -/
def highByte (w : Word) : Byte := BitVec.ofNat 8 (w.toNat / 256)

/-- The word whose bytes are `lo` and `hi`: lo + 256 * hi (R67). -/
def wordOfBytes (lo hi : Byte) : Word := BitVec.ofNat 16 (lo.toNat + 256 * hi.toNat)

/-- The words that a list of bytes holds, low byte first; a last odd byte is dropped (R67). -/
def wordsOfBytes : List Byte → List Word
  | lo :: hi :: bs => wordOfBytes lo hi :: wordsOfBytes bs
  | _ => []

/-- The bytes of a list of words, low byte first (R68). -/
def bytesOfWords : List Word → List Byte
  | [] => []
  | w :: ws => lowByte w :: highByte w :: bytesOfWords ws

/-- Decodes the instruction at the head of a list of bytes and gives the bytes after it. -/
def decodeBytes (bs : List Byte) : Except DecodeError (Instr × List Byte) :=
  match decode (wordsOfBytes bs) with
  | .ok (i, _) => .ok (i, bs.drop (2 * (encode i).length))
  | .error e => .error e

/-- The longest instruction has four words (R91). -/
abbrev maxInstrWords : Nat := 4

/-- The first four words of an instruction whose bits are `w`, numbered from the first word's bit 0 on; every bit from
`nbits` up is 0. -/
def tableWords (nbits w : Nat) : List Word :=
  (List.range maxInstrWords).map fun k => BitVec.ofNat 16 ((w % 2 ^ nbits) >>> (16 * k))

/-- The instruction the decoder reads from a table row's bits, laid out in bytes as the image holds them (R67). -/
def decodeTableWord (nbits w : Nat) : Option Instr :=
  match decodeBytes (bytesOfWords (tableWords nbits w)) with
  | .ok (i, _) => some i
  | .error _ => none

end Sys2Proof
end

