-- ==== Sys2Proof/Machine/State.lean ====
section
/-! DEFINITION. The machine's state (10_state.md), the fault kinds (60_exceptions.md R260), the host's actions (R281), and the
state right after reset (R46). -/

namespace Sys2Proof.Machine

/-- run_state (R40). -/
inductive RunState where
  /-- 0: the engine executes the instruction at pc on its next step -/
  | running
  /-- 1: an IN waits for the host's response -/
  | waitIn
  /-- 2: the run ended gracefully -/
  | halted
  /-- 3: the run ended with a fault -/
  | faulted
  deriving DecidableEq, Repr

/-- The fault kinds of R260 (code 0, no fault, is no kind). -/
inductive FaultKind where
  | invalidOpcode
  | invalidOperand
  | stackEmpty
  | memRange
  | divZero
  | stackOverflow
  | inputClosed
  deriving DecidableEq, Repr

/-- What `raise` carries (R9, R125): the kind, the address it concerns and the offending raw word; an address or a word
that the kind does not set is 0 (R260). -/
structure FaultInfo where
  kind : FaultKind
  addr : Nat
  value : Word
  deriving DecidableEq, Repr

/-- The host's response to a pending IN (R242). -/
inductive Response where
  /-- (a) one character code, any 16-bit value (decision D11) -/
  | char (v : Word)
  /-- (b) no character; the IN is fetched and executed again -/
  | retry
  /-- (c) the operator's interrupt arrived during the wait -/
  | terminate
  /-- (d) input has ended -/
  | closed
  deriving DecidableEq, Repr

/-- What the host may do while an IN waits (R281). Each action gives the pending IN its one response: Save, the usage hint
and the patch are followed by Retry, in the same step (log entry 8). -/
inductive HostAction where
  /-- Respond -/
  | respond (r : Response)
  /-- Save, then Retry: reads the state, writes nothing in the block (R303) -/
  | save
  /-- Usage hint, then Retry: on the host's own channel only -/
  | usageHint
  /-- Patch, then Retry: two plain memory writes; the addresses and values are OPEN, so the action carries them (R282, log entry 7) -/
  | patch (addr0 val0 addr1 val1 : Word)
  deriving DecidableEq, Repr

/-- Memory as plain data: bytes by key, keys strictly rising, no byte 0 listed. The 16-bit cell at word address a is the
byte at key 2a (low) and the byte at key 2a+1 (high), as in the image (R67); log entry 4. -/
abbrev Memory := List Host.Cell

/-- The state of the block (10_state.md), and after it three fields that are the model's own. -/
structure State where
  /-- x[0..7] (R30) -/
  regs : Vector Word 8
  /-- the program counter (R33) -/
  pc : Word
  /-- the stack, its top first (R35) -/
  stack : List Word
  /-- the memory array (R38) -/
  mem : Memory
  /-- mem_limit, the number N of cells (R39) -/
  memLimit : Word
  /-- run_state (R40) -/
  runState : RunState
  /-- fault_code (R41) -/
  faultCode : BitVec 3
  /-- fault_pc (R41) -/
  faultPc : Word
  /-- fault_addr (R41) -/
  faultAddr : Word
  /-- fault_value (R41) -/
  faultValue : Word
  /-- MODEL'S OWN: the OPEN parameter STACK_DEPTH (R6, R35; log entry 1); no step changes it -/
  stackDepth : Config.StackDepth
  /-- MODEL'S OWN: the output stream so far, oldest value first (R243, R273; log entry 3) -/
  output : List Word
  /-- MODEL'S OWN: the host's actions to come, oldest first, one taken at each step of WAIT_IN (R242, R281; log entry 2) -/
  hostQueue : List HostAction
  deriving DecidableEq, Repr

/-- Why `step` answers no next state. A fault of the spec (R260) is none of these: it is a next state that is FAULTED. -/
inductive Fault where
  /-- `step` of a HALTED machine: 'the engine takes no further step' (R132). Safe: the model stops where the block stops. -/
  | runHalted
  /-- `step` of a FAULTED machine (R132). Safe: the model stops where the block stops. -/
  | runFaulted
  /-- `step` of a waiting machine to which the host gives no action: the block is stuck in WAIT_IN (R120, R313;
  93_implementation_defined.md). Safe: the model stops where the block waits. -/
  | waitingForHost
  deriving DecidableEq, Repr

/-- What the model gives no meaning to. -/
inductive Refusal where
  /-- raised by `exec` alone, for an instruction without a meaning; no instruction is in that case. Safe. -/
  | notModelled (mnemonic : String)
  /-- raised by the host's patch action at an address at or above N, which the spec lets a model refuse
  (93_implementation_defined.md, the row on the patch; log entry 7). Safe: the model stops where the source is silent. -/
  | patchOutsideMemory
  deriving DecidableEq, Repr

/-- Why the host's Load or Restore is refused; nothing is loaded. -/
inductive LoadError where
  /-- LOAD_ODD_LENGTH (R304) -/
  | oddLength
  /-- LOAD_TOO_LARGE (R305) -/
  | tooLarge
  /-- a snapshot with a missing field, a wrong count or a value out of range (R302, R306) -/
  | malformedSnapshot
  /-- the host has no such move: the run is neither yet to start nor, for a Load, finished (R281) -/
  | runInProgress
  deriving DecidableEq, Repr

/-- A snapshot as the host hands it over (R302); a missing field is none (R306), and a number may be out of range. -/
structure Snapshot where
  /-- element i for x[i] -/
  registers : Option (List Int)
  /-- bottom to top -/
  stack : Option (List Int)
  pc : Option Int
  deriving DecidableEq, Repr

/-- The state right after a fresh reset (R46, R300) from the empty image, which is accepted and has N = 0 (R301); log
entry 5. The reset value of stackDepth is the reference behaviour (R6; log entry 1). -/
def State.reset : State where
  regs := Vector.replicate 8 0
  pc := 0
  stack := []
  mem := []
  memLimit := 0
  runState := .running
  faultCode := 0
  faultPc := 0
  faultAddr := 0
  faultValue := 0
  stackDepth := none
  output := []
  hostQueue := []

end Sys2Proof.Machine
end

