-- ==== Sys2Proof/Machine/Ops.lean ====
section
/-! DEFINITION. The named operations of the machine: bytes and cells of memory, MemRead and MemWrite (20_memory.md R61, R62),
registers, the stack (10_state.md R36, R37), the output port (47_io.md R243), fault entry (60_exceptions.md R268), the commit
of an instruction's outcome (40_engine.md R126) and the fetch of an instruction (R121 to R123). -/

namespace Sys2Proof.Machine

/-- The canonical form of memory: keys strictly rising, and no entry equal to what an unlisted key reads as. -/
abbrev Memory.wf (m : Memory) : Prop :=
  m.Pairwise (fun c d => c.1 < d.1) ∧ ∀ c ∈ m, c.2 ≠ 0

/-- What a byte that is not listed reads as. Every cell below N is loaded from the image, so this is only how a zero byte
is held (log entry 4). -/
abbrev Memory.unlisted : Byte := 0

/-- The byte at key `k`. -/
def Memory.byteAt : Memory → Nat → Byte
  | [], _ => Memory.unlisted
  | c :: m, k => if c.1 = k then c.2 else Memory.byteAt m k

/-- Puts byte `b` at the head of a memory whose keys are all above `k`, unless it is what an unlisted key reads as. -/
def Memory.putFirst (k : Nat) (b : Byte) (m : Memory) : Memory :=
  if b = Memory.unlisted then m else (k, b) :: m

/-- Writes byte `b` at key `k`, keeping the canonical form. -/
def Memory.setByte : Memory → Nat → Byte → Memory
  | [], k, b => Memory.putFirst k b []
  | c :: m, k, b =>
    if k < c.1 then Memory.putFirst k b (c :: m)
    else if k = c.1 then Memory.putFirst k b m
    else c :: Memory.setByte m k b

/-- The 16-bit cell at word address `a` (R60, R67). -/
def Memory.word (m : Memory) (a : Nat) : Word := wordOfBytes (m.byteAt (2 * a)) (m.byteAt (2 * a + 1))

/-- Replaces the whole 16-bit cell at word address `a` (R70). -/
def Memory.setWord (m : Memory) (a : Nat) (w : Word) : Memory :=
  (m.setByte (2 * a) (lowByte w)).setByte (2 * a + 1) (highByte w)

/-- Writes words at consecutive addresses from `a` on. -/
def Memory.setWords (m : Memory) (a : Nat) : List Word → Memory
  | [] => m
  | w :: ws => Memory.setWords (m.setWord a w) (a + 1) ws

/-- The memory that holds a list of bytes from key `k` on. -/
def Memory.ofBytes (k : Nat) : List Byte → Memory
  | [] => []
  | b :: bs => Memory.putFirst k b (Memory.ofBytes (k + 1) bs)

/-- `mem[a]`: the cell at word address `a`, without the range check of MemRead. -/
def State.cell (s : State) (a : Nat) : Word := s.mem.word a

/-- `x[i]` (R9, R30). -/
def State.reg (s : State) (i : RegIx) : Word := s.regs[i.toNat]'i.isLt

/-- `x[i] <- v` (R9, R30). -/
def State.setReg (s : State) (i : RegIx) (v : Word) : State :=
  { s with regs := s.regs.set i.toNat v i.isLt }

/-- `pc <- t` (R9). -/
def State.setPc (s : State) (t : Word) : State := { s with pc := t }

/-- Replaces the stack. -/
def State.setStack (s : State) (st : List Word) : State := { s with stack := st }

/-- `mem[a] <- v`, without the range check of MemWrite. -/
def State.setCell (s : State) (a : Nat) (v : Word) : State := { s with mem := s.mem.setWord a v }

/-- `run_state <- r`. -/
def State.setRunState (s : State) (r : RunState) : State := { s with runState := r }

/-- `Out(v)`: appends one event to the output stream (R243). -/
def State.emit (s : State) (v : Word) : State := { s with output := s.output ++ [v] }

/-- What the host still has to do. -/
def State.setQueue (s : State) (q : List HostAction) : State := { s with hostQueue := q }

/-- The code of a fault kind in fault_code (R260). -/
def FaultKind.code : FaultKind → BitVec 3
  | .invalidOpcode => 1
  | .invalidOperand => 2
  | .stackEmpty => 3
  | .memRange => 4
  | .divZero => 5
  | .stackOverflow => 6
  | .inputClosed => 7

/-- The 2-bit encoding of run_state (R40). -/
def RunState.code : RunState → BitVec 2
  | .running => 0
  | .waitIn => 1
  | .halted => 2
  | .faulted => 3

/-- TAKING A FAULT (R126, R268): the fault record is written and run_state is FAULTED; nothing else changes, the pc keeps
the faulting instruction's address (R128). -/
def State.enterFault (s : State) (f : FaultInfo) : State :=
  { s with
    runState := .faulted
    faultCode := f.kind.code
    faultPc := s.pc
    faultAddr := BitVec.ofNat 16 f.addr
    faultValue := f.value }

/-- The address of operand word k of the instruction at pc (R12, Slot). -/
def State.slot (s : State) (k : Nat) : Nat := s.pc.toNat + k

/-- `MemRead(a, 1)` (R61). -/
def memRead (s : State) (a : Nat) : Except FaultInfo Word :=
  if s.memLimit.toNat ≤ a then .error ⟨.memRange, a, 0⟩ else .ok (s.cell a)

/-- `MemWrite(a, 1, v)` (R62). -/
def memWrite (s : State) (a : Nat) (v : Word) : Except FaultInfo State :=
  if s.memLimit.toNat ≤ a then .error ⟨.memRange, a, 0⟩ else .ok (s.setCell a v)

/-- `depth(stack) = STACK_DEPTH`; never so when STACK_DEPTH is unbounded (R36). -/
def State.stackFull (s : State) : Bool :=
  match s.stackDepth with
  | none => false
  | some d => d.val ≤ s.stack.length

/-- `Push(v)` (R36). -/
def push (s : State) (v : Word) : Except FaultInfo State :=
  if s.stackFull then .error ⟨.stackOverflow, 0, 0⟩ else .ok (s.setStack (v :: s.stack))

/-- `Pop()` (R37): the top entry and the state without it; none on an empty stack. -/
def pop (s : State) : Option (Word × State) :=
  match s.stack with
  | [] => none
  | v :: st => some (v, s.setStack st)

/-- What an instruction that raised no fault does with the run (R125). -/
inductive After where
  /-- Continue(t) -/
  | goOn (t : Word)
  /-- Halt -/
  | halt
  /-- Wait -/
  | wait
  deriving DecidableEq, Repr

/-- The outcome of an instruction rule (R125): the state its effects lead to and how the run goes on, or a fault. -/
abbrev Effect := Except FaultInfo (State × After)

/-- Applies the outcome of the instruction that runs in `s` (R126). A fault is entered from `s` itself, so a faulting
instruction commits nothing else (R10, R128). -/
def commit (s : State) : Effect → Host.Outcome State Fault Refusal
  | .ok (t, .goOn p) => .next (t.setPc p)
  | .ok (t, .halt) => .next (t.setRunState .halted)
  | .ok (t, .wait) => .next (t.setRunState .waitIn)
  | .error f => .next (s.enterFault f)

/-- The `n` words from address `a` on, read in order; the lowest address at or above N faults (R123). -/
def memReads (s : State) (a : Nat) : Nat → Except FaultInfo (List Word)
  | 0 => .ok []
  | n + 1 => do
    let w ← memRead s a
    let ws ← memReads s (a + 1) n
    return w :: ws

/-- Fetch, decode and operand fetch of the instruction at pc, with the first of its faults (R121 to R123, R129). -/
def fetchInstr (s : State) : Except FaultInfo Instr := do
  let op ← memRead s s.pc.toNat
  match arityOf op with
  | none => .error ⟨.invalidOpcode, s.pc.toNat, op⟩
  | some n =>
    let ws ← memReads s (s.slot 1) n
    match decode (op :: ws) with
    | .ok (i, _) => .ok i
    | .error _ => .error ⟨.invalidOpcode, s.pc.toNat, op⟩

end Sys2Proof.Machine
end

