-- ==== Sys2Proof/Machine/Boot.lean ====
section
/-! DEFINITION. What Load, Restore and Save do (70_reset_and_hazards.md R300 to R306), and what a run shows
(60_exceptions.md R269, R273, R274). Plain functions beside step (log entry 9); when the host may load or restore is in
Machine/Session.lean. -/

namespace Sys2Proof.Machine

/-- The effect of Load (R300): the whole state of the block is a fresh reset from the image. What is not the block's is
given: the parameter STACK_DEPTH and the host's own plans; the output stream of the new run is empty (log entry 9). -/
def loadImage (image : List Byte) (depth : Config.StackDepth) (plans : List HostAction) : Except LoadError State :=
  if image.length % 2 = 1 then .error .oddLength
  else if Config.maxImageWords < image.length / 2 then .error .tooLarge
  else .ok { State.reset with
    mem := Memory.ofBytes 0 image
    memLimit := BitVec.ofNat 16 (image.length / 2)
    stackDepth := depth
    hostQueue := plans }

/-- A snapshot value as a word; none outside 0..65535 (R302). -/
def wordOfInt (n : Int) : Option Word :=
  if 0 ≤ n ∧ n ≤ 65535 then some (BitVec.ofNat 16 n.toNat) else none

/-- All values of a snapshot list as words; none if one is out of range (R302). -/
def wordsOfInts : List Int → Option (List Word)
  | [] => some []
  | n :: ns =>
    match wordOfInt n, wordsOfInts ns with
    | some w, some ws => some (w :: ws)
    | _, _ => none

/-- The eight registers of a snapshot; none for any other number of elements (R302). -/
def regsOfList : List Word → Option (Vector Word 8)
  | [a, b, c, d, e, f, g, h] => some #v[a, b, c, d, e, f, g, h]
  | _ => none

/-- Whether a stack of `n` entries fits in STACK_DEPTH (R302). -/
def fitsDepth (depth : Config.StackDepth) (n : Nat) : Bool :=
  match depth with
  | none => true
  | some d => n ≤ d.val

/-- The registers, the stack (bottom to top) and the pc of a snapshot whose fields are all there, whose counts fit and
whose values are all in range; none for a malformed one (R302, R306). -/
def snapshotParts (depth : Config.StackDepth) (snap : Snapshot) : Option (Vector Word 8 × List Word × Word) := do
  let regs ← regsOfList (← wordsOfInts (← snap.registers))
  let stack ← wordsOfInts (← snap.stack)
  let pc ← wordOfInt (← snap.pc)
  if fitsDepth depth stack.length then return (regs, stack, pc) else none

/-- The effect of Restore (R302): a load, then the registers, the stack and the pc of the snapshot; memory comes from the
image alone. -/
def restoreImage (image : List Byte) (snap : Snapshot) (depth : Config.StackDepth) (plans : List HostAction) :
    Except LoadError State := do
  let t ← loadImage image depth plans
  match snapshotParts depth snap with
  | none => .error .malformedSnapshot
  | some (regs, stack, pc) => .ok { t with regs := regs, stack := stack.reverse, pc := pc }

/-- The image Save writes: every cell in address order, low byte first (R68, R303). -/
def saveImage (s : State) : List Byte := (List.range (2 * s.memLimit.toNat)).map s.mem.byteAt

/-- The snapshot Save writes: registers, stack bottom to top, pc (R303). -/
def saveSnapshot (s : State) : Snapshot where
  registers := some (s.regs.toList.map fun w => (w.toNat : Int))
  stack := some (s.stack.reverse.map fun w => (w.toNat : Int))
  pc := some s.pc.toNat

/-- Save, which the host may do while an IN waits and at no other time (R281, R303). -/
def save (s : State) : Option (List Byte × Snapshot) :=
  if s.runState = .waitIn then some (saveImage s, saveSnapshot s) else none

/-- Whether a run has ended (R273). -/
abbrev State.Finished (s : State) : Prop := s.runState = .halted ∨ s.runState = .faulted

/-- The exit status of an ended run: 0 for HALTED, FAIL_STATUS for FAULTED (R274). -/
def exitStatus (failStatus : Config.FailStatus) : RunState → Option Nat
  | .halted => some 0
  | .faulted => some failStatus.val
  | .running | .waitIn => none

/-- The fault kind of a fault_code; none for 0, no fault (R260). -/
def kindOfCode (c : BitVec 3) : Option FaultKind :=
  match c.toNat with
  | 1 => some .invalidOpcode
  | 2 => some .invalidOperand
  | 3 => some .stackEmpty
  | 4 => some .memRange
  | 5 => some .divZero
  | 6 => some .stackOverflow
  | 7 => some .inputClosed
  | _ => none

/-- Whether a kind sets fault_addr (R260). -/
def FaultKind.setsAddr : FaultKind → Bool
  | .invalidOpcode | .invalidOperand | .memRange => true
  | .stackEmpty | .divZero | .stackOverflow | .inputClosed => false

/-- Whether a kind sets fault_value (R260). -/
def FaultKind.setsValue : FaultKind → Bool
  | .invalidOpcode | .invalidOperand => true
  | .memRange | .stackEmpty | .divZero | .stackOverflow | .inputClosed => false

/-- What the host's message about a fault says (R269); its wording is the host's. -/
structure Diagnostic where
  kind : FaultKind
  faultPc : Word
  faultAddr : Option Word
  faultValue : Option Word
  deriving DecidableEq, Repr

/-- The diagnostic of a FAULTED machine (R269). -/
def diagnostic (s : State) : Option Diagnostic :=
  match s.runState, kindOfCode s.faultCode with
  | .faulted, some k => some {
      kind := k
      faultPc := s.faultPc
      faultAddr := if k.setsAddr then some s.faultAddr else none
      faultValue := if k.setsValue then some s.faultValue else none }
  | _, _ => none

/-- What a run shows once it has ended (R273). -/
structure Observation where
  runState : RunState
  diagnostic : Option Diagnostic
  output : List Word
  regs : Vector Word 8
  /-- bottom to top -/
  stack : List Word
  pc : Word
  /-- every cell, in address order -/
  cells : List Word
  deriving DecidableEq, Repr

/-- Observe (R273, R281): after HALTED or FAULTED, and only then. -/
def observe (s : State) : Option Observation :=
  if s.Finished then some {
    runState := s.runState
    diagnostic := diagnostic s
    output := s.output
    regs := s.regs
    stack := s.stack.reverse
    pc := s.pc
    cells := (List.range s.memLimit.toNat).map s.cell }
  else none

/-- Places the words of one instruction where the next step fetches, and nothing the fetch does not need: the words at pc,
enough cells to hold them, and RUNNING. A pc from which four words do not fit below MAX_IMAGE_WORDS becomes 0 (log
entry 5). -/
def placeInstr (ws : List Word) (s : State) : State :=
  let pc : Word := if s.pc.toNat + maxInstrWords ≤ Config.maxImageWords then s.pc else 0
  { s with
    pc := pc
    mem := s.mem.setWords pc.toNat ws
    memLimit := BitVec.ofNat 16 (max s.memLimit.toNat (pc.toNat + maxInstrWords))
    runState := .running }

end Sys2Proof.Machine
end

