-- ==== Sys2Proof/Machine/Operands.lean ====
section
/-! DEFINITION. Operand forms: the resolver and the register address decoder (30_encoding.md R97, R98), destination
descriptors (R99) and WriteThrough (20_memory.md R64). Summary of the forms: 46_memory_ops.md R232. -/

namespace Sys2Proof.Machine

/-- What a raw word is as an operand (R97, R99). -/
inductive OperandForm where
  /-- 0..32767 -/
  | literal
  /-- 32768..32775, naming register i -/
  | register (i : RegIx)
  /-- 32776..65535 -/
  | invalid
  deriving DecidableEq, Repr

/-- The register address decoder: the register index of a tag, its bits 2..0 (R98). -/
def tagIndex (w : Word) : RegIx := w.extractLsb' 0 3

/-- The classification by bit 15 and bits 14..3 (R97, R99). -/
def classify (w : Word) : OperandForm :=
  if w.extractLsb' 15 1 = 0 then .literal
  else if w.extractLsb' 3 12 = 0 then .register (tagIndex w)
  else .invalid

/-- `Resolve(w, at)`: the value of raw word `w`, found at address `addr` (R97). -/
def resolve (s : State) (w : Word) (addr : Nat) : Except FaultInfo Word :=
  match classify w with
  | .literal => .ok w
  | .register i => .ok (s.reg i)
  | .invalid => .error ⟨.invalidOperand, addr, w⟩

/-- `WriteThrough(v, slot)`: the raw word at `slot` decides; a register tag there redirects the write to its register, any
other word is itself overwritten (R64, R65, R99). -/
def writeThrough (s : State) (v : Word) (slot : Nat) : Except FaultInfo State := do
  let d ← memRead s slot
  match classify d with
  | .register i => .ok (s.setReg i v)
  | .literal | .invalid => memWrite s slot v

end Sys2Proof.Machine
end

