-- ==== Sys2Proof/Machine/Flags.lean ====
section
/-! DEFINITION. The ISA has no flags (10_state.md R44). What stands for them is an ordinary value: the 0 or 1 that EQ and GT
write (43_compare.md) and the non-zero test of JT and JF (44_control.md). -/

namespace Sys2Proof.Machine

/-- The result word of a comparison: 1 if it holds, else 0 (R170, R171). -/
def truthWord (p : Bool) : Word := if p then 1 else 0

/-- A condition value is true when it is not 0 (R181, R182). -/
def isNonZero (c : Word) : Bool := c != 0

end Sys2Proof.Machine
end

