-- ==== Sys2Proof/Machine/Alu.lean ====
section
/-! DEFINITION. ADD, MULT, MOD, AND, OR and NOT (45_alu.md): exact results on natural numbers, then narrowed (R206). -/

namespace Sys2Proof.Machine

/-- The common part of the three-operand rules (45_alu.md, 43_compare.md): resolve b, then c, compute, write through
pc+1, go on at pc+4. -/
def binaryOp (f : Word → Word → Except FaultInfo Word) (b c : Src) (s : State) :
    Host.Outcome State Fault Refusal := commit s do
  let vb ← resolve s b (s.slot 2)
  let vc ← resolve s c (s.slot 3)
  let r ← f vb vc
  let t ← writeThrough s r (s.slot 1)
  return (t, .goOn (s.pc + 4))

/-- The exact sum, reduced modulo 32768 (R200). -/
def aluAdd (x y : Word) : Word := BitVec.ofNat 16 ((x.toNat + y.toNat) % Config.modulus)

/-- The exact product, reduced modulo 32768 (R201). -/
def aluMult (x y : Word) : Word := BitVec.ofNat 16 ((x.toNat * y.toNat) % Config.modulus)

/-- The unsigned remainder; a zero divisor raises DIV_ZERO (R202). -/
def aluMod (x y : Word) : Except FaultInfo Word :=
  if y = 0 then .error ⟨.divZero, 0, 0⟩ else .ok (BitVec.ofNat 16 (x.toNat % y.toNat))

/-- The 15-bit complement (R205). -/
def aluNot (x : Word) : Word := ~~~x &&& Config.dataMask

/-- ADD a b c (R200). -/
def execAdd (b c : Src) (s : State) : Host.Outcome State Fault Refusal :=
  binaryOp (fun x y => .ok (aluAdd x y)) b c s

/-- MULT a b c (R201). -/
def execMult (b c : Src) (s : State) : Host.Outcome State Fault Refusal :=
  binaryOp (fun x y => .ok (aluMult x y)) b c s

/-- MOD a b c (R202). -/
def execMod (b c : Src) (s : State) : Host.Outcome State Fault Refusal := binaryOp aluMod b c s

/-- AND a b c, on all 16 bits, not reduced (R203). -/
def execAnd (b c : Src) (s : State) : Host.Outcome State Fault Refusal :=
  binaryOp (fun x y => .ok (x &&& y)) b c s

/-- OR a b c, on all 16 bits, not reduced (R204). -/
def execOr (b c : Src) (s : State) : Host.Outcome State Fault Refusal :=
  binaryOp (fun x y => .ok (x ||| y)) b c s

/-- NOT a b (R205). -/
def execNot (b : Src) (s : State) : Host.Outcome State Fault Refusal := commit s do
  let v ← resolve s b (s.slot 2)
  let t ← writeThrough s (aluNot v) (s.slot 1)
  return (t, .goOn (s.pc + 3))

end Sys2Proof.Machine
end

