-- ==== Sys2Proof/Machine/Compare.lean ====
section
/-! DEFINITION. EQ and GT (43_compare.md). -/

namespace Sys2Proof.Machine

/-- EQ a b c (R170). -/
def execEq (b c : Src) (s : State) : Host.Outcome State Fault Refusal :=
  binaryOp (fun x y => .ok (truthWord (x == y))) b c s

/-- GT a b c: strict and unsigned (R171). -/
def execGt (b c : Src) (s : State) : Host.Outcome State Fault Refusal :=
  binaryOp (fun x y => .ok (truthWord (decide (y.toNat < x.toNat)))) b c s

end Sys2Proof.Machine
end

