-- ==== Sys2Proof/Machine/Control.lean ====
section
/-! DEFINITION. JMP, JT, JF, CALL and RET (44_control.md). Targets are absolute and unchecked until they are fetched. -/

namespace Sys2Proof.Machine

/-- JMP a (R180). -/
def execJmp (a : Src) (s : State) : Host.Outcome State Fault Refusal := commit s do
  let t ← resolve s a (s.slot 1)
  return (s, .goOn t)

/-- The conditional jumps: both operands are resolved, taken or not (R100, R181, R182; decision D5). -/
def branchOn (taken : Word → Bool) (a b : Src) (s : State) : Host.Outcome State Fault Refusal := commit s do
  let c ← resolve s a (s.slot 1)
  let t ← resolve s b (s.slot 2)
  return (s, .goOn (if taken c then t else s.pc + 3))

/-- JT a b (R181). -/
def execJt (a b : Src) (s : State) : Host.Outcome State Fault Refusal := branchOn isNonZero a b s

/-- JF a b (R182). -/
def execJf (a b : Src) (s : State) : Host.Outcome State Fault Refusal := branchOn (fun c => !isNonZero c) a b s

/-- CALL a: the target is resolved before the push (R183; decision D16). -/
def execCall (a : Src) (s : State) : Host.Outcome State Fault Refusal := commit s do
  let t ← resolve s a (s.slot 1)
  let u ← push s (s.pc + 2)
  return (u, .goOn t)

/-- RET: an empty stack ends the run gracefully (R184). -/
def execRet (s : State) : Host.Outcome State Fault Refusal :=
  match pop s with
  | none => commit s (.ok (s, .halt))
  | some (t, u) => commit s (.ok (u, .goOn t))

end Sys2Proof.Machine
end

