-- ==== Sys2Proof/Machine/HaltNoop.lean ====
section
/-! DEFINITION. HALT and NOOP (41_halt_noop.md). -/

namespace Sys2Proof.Machine

/-- HALT (R140). -/
def execHalt (s : State) : Host.Outcome State Fault Refusal := commit s (.ok (s, .halt))

/-- NOOP (R141). -/
def execNoop (s : State) : Host.Outcome State Fault Refusal := commit s (.ok (s, .goOn (s.pc + 1)))

end Sys2Proof.Machine
end

