-- ==== Sys2Proof/Machine/Io.lean ====
section
/-! DEFINITION. OUT and IN (47_io.md), the completion of IN by the host's response (R241), and what else the host does while
an IN waits (60_exceptions.md R281, R282). -/

namespace Sys2Proof.Machine

/-- OUT a (R240). -/
def execOut (a : Src) (s : State) : Host.Outcome State Fault Refusal := commit s do
  let v ← resolve s a (s.slot 1)
  return (s.emit v, .goOn (s.pc + 2))

/-- IN a, the engine's step: the request is raised and the block waits at the same pc (R241). -/
def execIn (s : State) : Host.Outcome State Fault Refusal := commit s (.ok (s, .wait))

/-- Char(v): the code is written through pc+1, whose word is read now, and the run goes on after the IN (R241). -/
def completeChar (v : Word) (s : State) : Host.Outcome State Fault Refusal := commit s do
  let t ← writeThrough s v (s.slot 1)
  return (t.setRunState .running, .goOn (s.pc + 2))

/-- The completion of a waiting IN by the host's response (R241, R242). -/
def completeIn (r : Response) (s : State) : Host.Outcome State Fault Refusal :=
  match r with
  | .char v => completeChar v s
  | .retry => .next (s.setRunState .running)
  | .terminate => .next (s.setRunState .halted)
  | .closed => .next (s.enterFault ⟨.inputClosed, 0, 0⟩)

/-- The host's debug patch: two plain writes, in order, that check no value and follow no register tag (R282), and then
Retry (R281); refused at an address at or above N (log entry 7). -/
def hostPatch (addr0 val0 addr1 val1 : Word) (s : State) : Host.Outcome State Fault Refusal :=
  if addr0.toNat < s.memLimit.toNat ∧ addr1.toNat < s.memLimit.toNat then
    completeIn .retry ((s.setCell addr0.toNat val0).setCell addr1.toNat val1)
  else .refused .patchOutsideMemory

/-- One action of the host on a waiting block, with the response it ends in (R281). Save and the usage hint write nothing
in the block and answer Retry. -/
def hostAct (a : HostAction) (s : State) : Host.Outcome State Fault Refusal :=
  match a with
  | .respond r => completeIn r s
  | .save => completeIn .retry s
  | .usageHint => completeIn .retry s
  | .patch addr0 val0 addr1 val1 => hostPatch addr0 val0 addr1 val1 s

/-- WAIT_IN: the block takes no step of its own; the host's next action is taken, and with none the block is stuck
(R120, R313). -/
def hostTurn (s : State) : Host.Outcome State Fault Refusal :=
  match s.hostQueue with
  | [] => .fault .waitingForHost
  | a :: rest => hostAct a (s.setQueue rest)

/-- The responses that one line of input makes: its characters in order, then the line terminator (R242, R281 duty (b)). -/
def lineActions (lineTerminator : Word) (line : List Word) : List HostAction :=
  (line ++ [lineTerminator]).map fun v => .respond (.char v)

/-- What the host does on the save phrase: with a name it saves, without one it gives the usage hint (R281). -/
def savePhraseAction (named : Bool) : HostAction := if named then .save else .usageHint

end Sys2Proof.Machine
end

