-- ==== Sys2Proof/Machine/MemoryOps.lean ====
section
/-! DEFINITION. RMEM and WMEM (46_memory_ops.md). -/

namespace Sys2Proof.Machine

/-- RMEM a b: the word read is itself resolved (R230). -/
def execRmem (b : Src) (s : State) : Host.Outcome State Fault Refusal := commit s do
  let addr ← resolve s b (s.slot 2)
  let raw ← memRead s addr.toNat
  let v ← resolve s raw addr.toNat
  let t ← writeThrough s v (s.slot 1)
  return (t, .goOn (s.pc + 3))

/-- WMEM a b: writes through the descriptor that stands at the resolved address (R231). -/
def execWmem (a b : Src) (s : State) : Host.Outcome State Fault Refusal := commit s do
  let addr ← resolve s a (s.slot 1)
  let v ← resolve s b (s.slot 2)
  let t ← writeThrough s v addr.toNat
  return (t, .goOn (s.pc + 3))

end Sys2Proof.Machine
end

