-- ==== Sys2Proof/Machine/MoveStack.lean ====
section
/-! DEFINITION. SET, PUSH and POP (42_move_stack.md). A destination operand is no argument of a meaning: WriteThrough reads
it again from its slot pc+1 (30_encoding.md R96(b); log entry 11). -/

namespace Sys2Proof.Machine

/-- SET a b (R150). -/
def execSet (b : Src) (s : State) : Host.Outcome State Fault Refusal := commit s do
  let v ← resolve s b (s.slot 2)
  let t ← writeThrough s v (s.slot 1)
  return (t, .goOn (s.pc + 3))

/-- PUSH a (R151). -/
def execPush (a : Src) (s : State) : Host.Outcome State Fault Refusal := commit s do
  let v ← resolve s a (s.slot 1)
  let t ← push s v
  return (t, .goOn (s.pc + 2))

/-- POP a (R152). -/
def execPop (s : State) : Host.Outcome State Fault Refusal := commit s do
  match pop s with
  | none => .error ⟨.stackEmpty, 0, 0⟩
  | some (v, t) =>
    let u ← writeThrough t v (s.slot 1)
    return (u, .goOn (s.pc + 2))

end Sys2Proof.Machine
end

