-- ==== Sys2Proof/Machine/Dispatch.lean ====
section
/-! DEFINITION. Dispatch: one arm per instruction (40_engine.md R124). -/

namespace Sys2Proof.Machine

/-- Executes one instruction whose opcode word stands at pc (R124). A destination operand word is not passed on: its
meaning reads it from its slot (R96(b)). -/
def exec (i : Instr) (s : State) : Host.Outcome State Fault Refusal :=
  match i with
  | .halt => Sys2Proof.Machine.execHalt s
  | .set _ b => Sys2Proof.Machine.execSet b s
  | .push a => Sys2Proof.Machine.execPush a s
  | .pop _ => Sys2Proof.Machine.execPop s
  | .eq _ b c => Sys2Proof.Machine.execEq b c s
  | .gt _ b c => Sys2Proof.Machine.execGt b c s
  | .jmp a => Sys2Proof.Machine.execJmp a s
  | .jt a b => Sys2Proof.Machine.execJt a b s
  | .jf a b => Sys2Proof.Machine.execJf a b s
  | .add _ b c => Sys2Proof.Machine.execAdd b c s
  | .mult _ b c => Sys2Proof.Machine.execMult b c s
  | .mod _ b c => Sys2Proof.Machine.execMod b c s
  | .and _ b c => Sys2Proof.Machine.execAnd b c s
  | .or _ b c => Sys2Proof.Machine.execOr b c s
  | .not _ b => Sys2Proof.Machine.execNot b s
  | .rmem _ b => Sys2Proof.Machine.execRmem b s
  | .wmem a b => Sys2Proof.Machine.execWmem a b s
  | .call a => Sys2Proof.Machine.execCall a s
  | .ret => Sys2Proof.Machine.execRet s
  | .out a => Sys2Proof.Machine.execOut a s
  | .inp _ => Sys2Proof.Machine.execIn s
  | .noop => Sys2Proof.Machine.execNoop s

end Sys2Proof.Machine
end

