-- ==== Sys2Proof/Machine/Step.lean ====
section
/-! DEFINITION. One step (40_engine.md R120), and how one instruction is placed to be run next. -/

namespace Sys2Proof.Machine

/-- One step. RUNNING: fetch, decode and execute the instruction at pc, or take the fetch's fault (R121 to R126). WAIT_IN:
the host's next action (R241). HALTED and FAULTED: no step (R132). -/
def step (s : State) : Host.Outcome State Fault Refusal :=
  match s.runState with
  | .running =>
    match fetchInstr s with
    | .ok i => exec i s
    | .error f => .next (s.enterFault f)
  | .waitIn => hostTurn s
  | .halted => .fault .runHalted
  | .faulted => .fault .runFaulted

/-- `s` with the instruction of a table row's bits placed where the next step fetches it (log entry 5). -/
def State.withFetchWord (s : State) (nbits w : Nat) : State := placeInstr (tableWords nbits w) s

end Sys2Proof.Machine
end

