-- ==== Sys2Proof/Asm.lean ====
section
/-! SUPPORT. The spec's assembly syntax of one instruction (30_encoding.md R105): notation only, no effect on the machine. -/

namespace Sys2Proof

/-- The mnemonic column of R94. -/
def Instr.mnemonic : Instr → String
  | .halt => "HALT"
  | .set .. => "SET"
  | .push .. => "PUSH"
  | .pop .. => "POP"
  | .eq .. => "EQ"
  | .gt .. => "GT"
  | .jmp .. => "JMP"
  | .jt .. => "JT"
  | .jf .. => "JF"
  | .add .. => "ADD"
  | .mult .. => "MULT"
  | .mod .. => "MOD"
  | .and .. => "AND"
  | .or .. => "OR"
  | .not .. => "NOT"
  | .rmem .. => "RMEM"
  | .wmem .. => "WMEM"
  | .call .. => "CALL"
  | .ret => "RET"
  | .out .. => "OUT"
  | .inp .. => "IN"
  | .noop => "NOOP"

/-- An operand word: a decimal literal, r0 to r7 for a register tag, #n for any other raw word (R105). -/
def operandText (w : Word) : String :=
  if w.toNat < 32768 then toString w.toNat
  else if w.toNat ≤ 32775 then "r" ++ toString (w.toNat - 32768)
  else "#" ++ toString w.toNat

/-- `MNEMONIC a, b, c` (R105). -/
def Instr.asmText (i : Instr) : String :=
  match i.operands with
  | [] => i.mnemonic
  | ws => i.mnemonic ++ " " ++ ", ".intercalate (ws.map operandText)

end Sys2Proof
end

