-- ==== Sys2Proof/Machine/Session.lean ====
section
/-! DEFINITION. When the host may load an image or restore a snapshot, and the boot order (60_exceptions.md R281,
70_reset_and_hazards.md R307). -/

namespace Sys2Proof.Machine

/-- How far the life of a run has come (R307). -/
inductive Session where
  /-- before a run, nothing loaded: STACK_DEPTH is fixed, and the host has its plans -/
  | empty (depth : Config.StackDepth) (plans : List HostAction)
  /-- before a run, an image loaded, and perhaps a snapshot restored -/
  | loaded (s : State)
  /-- the block has taken a step -/
  | run (s : State)
  deriving DecidableEq, Repr

/-- The host's Load: before a run, or to replace a finished one (R281). -/
def Session.load (image : List Byte) : Session → Except LoadError Session
  | .empty depth plans => (loadImage image depth plans).map .loaded
  | .loaded s => (loadImage image s.stackDepth s.hostQueue).map .loaded
  | .run s => if s.Finished then (loadImage image s.stackDepth s.hostQueue).map .loaded else .error .runInProgress

/-- The host's Restore: before a run (R281). A finished run is first replaced by a Load. -/
def Session.restore (image : List Byte) (snap : Snapshot) : Session → Except LoadError Session
  | .empty depth plans => (restoreImage image snap depth plans).map .loaded
  | .loaded s => (restoreImage image snap s.stackDepth s.hostQueue).map .loaded
  | .run _ => .error .runInProgress

/-- The block's state, once an image is loaded. -/
def Session.block : Session → Option State
  | .empty _ _ => none
  | .loaded s => some s
  | .run s => some s

/-- One step of the block; none before an image is loaded (R307) and none where `step` answers no next state. -/
def Session.step (x : Session) : Option Session :=
  match x.block with
  | none => none
  | some s =>
    match Sys2Proof.Machine.step s with
    | .next t => some (.run t)
    | .fault _ => none
    | .refused _ => none

/-- What the host and the block can bring about, from any STACK_DEPTH and any plans of the host (R281, R307). -/
inductive Session.Reached : Session → Prop where
  | empty (depth : Config.StackDepth) (plans : List HostAction) : Session.Reached (.empty depth plans)
  | load {x y : Session} (image : List Byte) : Session.Reached x → x.load image = .ok y → Session.Reached y
  | restore {x y : Session} (image : List Byte) (snap : Snapshot) :
      Session.Reached x → x.restore image snap = .ok y → Session.Reached y
  | step {x y : Session} : Session.Reached x → x.step = some y → Session.Reached y

end Sys2Proof.Machine
end

