-- ==== Sys2Proof/Safety.lean ====
section
/-! DEFINITION. What counts as a safe run, and the invariant of the machine: the relations between fields of State that the
spec's rules keep. -/

namespace Sys2Proof.Machine

/-- Every listed byte belongs to one of the N cells: cells at N and above do not exist (R38). -/
abbrev State.MemoryInside (s : State) : Prop := ∀ c ∈ s.mem, c.1 < 2 * s.memLimit.toNat

/-- The stack holds at most STACK_DEPTH entries (R35). -/
abbrev State.StackFits (s : State) : Prop := fitsDepth s.stackDepth s.stack.length = true

/-- While the machine is not FAULTED the fault record reads 0 (R41). -/
abbrev State.RecordClear (s : State) : Prop :=
  s.faultCode = 0 ∧ s.faultPc = 0 ∧ s.faultAddr = 0 ∧ s.faultValue = 0

/-- The fault record of a FAULTED machine is one that its kind can have (R41, R260): fault_pc is the pc, and fault_addr and
fault_value are what the kind records. -/
def State.recordFits (s : State) : Bool :=
  s.faultPc == s.pc &&
  match kindOfCode s.faultCode with
  | none => false
  | some .invalidOpcode =>
    s.faultAddr == s.pc && decide (21 < s.faultValue.toNat) && decide (s.pc.toNat < s.memLimit.toNat)
  | some .invalidOperand => decide (32775 < s.faultValue.toNat) && decide (s.faultAddr.toNat < s.memLimit.toNat)
  | some .memRange => decide (s.memLimit.toNat ≤ s.faultAddr.toNat) && s.faultValue == 0
  | some .stackEmpty | some .divZero | some .stackOverflow | some .inputClosed =>
    s.faultAddr == 0 && s.faultValue == 0

/-- The invariant: memory is canonical and inside N, N is at most MAX_IMAGE_WORDS (R39), the stack fits its depth, the
fault record is 0 unless the machine is FAULTED and then fits its kind, and a waiting IN has its operand slot (R241). -/
abbrev State.Inv (s : State) : Prop :=
  Memory.wf s.mem ∧
  s.MemoryInside ∧
  s.memLimit.toNat ≤ Config.maxImageWords ∧
  s.StackFits ∧
  (s.runState ≠ .faulted → s.RecordClear) ∧
  (s.runState = .faulted → s.recordFits = true) ∧
  (s.runState = .waitIn → s.slot 1 < s.memLimit.toNat)

/-- A safe state: the run has not ended with a fault (R273). -/
abbrev State.Safe (s : State) : Prop := s.runState ≠ .faulted

/-- The first `k` steps from `s` all answer a next state and end in a safe one. -/
def safeFor (k : Nat) (s : State) : Bool :=
  match Sys2Proof.core.run k s with
  | .next t => decide t.Safe
  | .fault _ | .refused _ => false

end Sys2Proof.Machine
end

