-- ==== Sys2Proof/Certificates/Slice0/Obligations.lean ====
section
/-! DEFINITION. The statements for the provers. Sys2Proof.Claims holds the words they are stated in, written from the spec's
value ranges and not from the model's own operations. -/

namespace Sys2Proof.Claims

open Sys2Proof.Machine

/-- A register tag: a raw word in 32768..32775 (R12). -/
abbrev IsTag (w : Word) : Prop := 32768 ≤ w.toNat ∧ w.toNat ≤ 32775

/-- The value of a source operand word by R97: below 32768 the word itself, 32768 + i the value of register i, and no value
above 32775. -/
def valueOf (s : State) (w : Word) : Option Word :=
  if w.toNat < 32768 then some w else s.regs[w.toNat - 32768]?

/-- The state after `v` is written through the descriptor at address `slot` (R64): the register the descriptor names if it
is a tag, else the cell at `slot` itself. -/
def delivered (s : State) (v : Word) (slot : Nat) : State :=
  if IsTag (s.cell slot) then
    { s with regs := s.regs.setIfInBounds ((s.cell slot).toNat - 32768) v }
  else { s with mem := s.mem.setWord slot v }

/-- The state after a fault of the instruction at pc: only run_state and the fault record differ (R268). -/
def faultedAt (s : State) (code : BitVec 3) (addr value : Word) : State :=
  { s with runState := .faulted, faultCode := code, faultPc := s.pc, faultAddr := addr, faultValue := value }

/-- Operand slot k of the instruction at pc lies in memory. -/
abbrev SlotThere (s : State) (k : Nat) : Prop := s.pc.toNat + k < s.memLimit.toNat

/-- The stack can take one more entry (R36). -/
abbrev StackHasRoom (s : State) : Prop := ∀ d, s.stackDepth = some d → s.stack.length < d.val

/-- The stack holds STACK_DEPTH entries (R36). -/
abbrev StackIsFull (s : State) : Prop := ∃ d, s.stackDepth = some d ∧ d.val ≤ s.stack.length

/-- The rule of a three-operand instruction with opcode word `code` that writes `f vb vc` and has no fault of its own. -/
def BinaryRule (i : Word → Word → Word → Instr) (code : Word) (f : Word → Word → Word) : Prop :=
  ∀ (a b c : Word) (s : State),
    encode (i a b c) = [code, a, b, c] ∧
    (∀ vb vc, valueOf s b = some vb → valueOf s c = some vc → SlotThere s 1 →
      exec (i a b c) s = .next { delivered s (f vb vc) (s.pc.toNat + 1) with pc := s.pc + 4 }) ∧
    (valueOf s b = none → exec (i a b c) s = .next (faultedAt s 2 (s.pc + 2) b)) ∧
    (∀ vb, valueOf s b = some vb → valueOf s c = none →
      exec (i a b c) s = .next (faultedAt s 2 (s.pc + 3) c))

/-- The rule of a conditional jump with opcode word `code`, taken when `taken` holds of its condition value. -/
def BranchRule (i : Word → Word → Instr) (code : Word) (taken : Word → Prop) : Prop :=
  ∀ (a b : Word) (s : State),
    encode (i a b) = [code, a, b] ∧
    (∀ c t, valueOf s a = some c → valueOf s b = some t → taken c →
      exec (i a b) s = .next { s with pc := t }) ∧
    (∀ c t, valueOf s a = some c → valueOf s b = some t → ¬ taken c →
      exec (i a b) s = .next { s with pc := s.pc + 3 }) ∧
    (valueOf s a = none → exec (i a b) s = .next (faultedAt s 2 (s.pc + 1) a)) ∧
    (∀ c, valueOf s a = some c → valueOf s b = none →
      exec (i a b) s = .next (faultedAt s 2 (s.pc + 2) b))

/-- The address whose descriptor an instruction writes through: its operand slot pc+1, for WMEM the value of its first
operand, and none for an instruction that writes no register or memory (R64). -/
def writeAddress (i : Instr) (s : State) : Option Nat :=
  match i with
  | .set .. | .pop .. | .eq .. | .gt .. | .add .. | .mult .. | .mod .. | .and .. | .or .. | .not .. | .rmem .. =>
    some (s.pc.toNat + 1)
  | .wmem a _ => (valueOf s a).map BitVec.toNat
  | .halt | .push .. | .jmp .. | .jt .. | .jf .. | .call .. | .ret | .out .. | .inp .. | .noop => none

/-- The instructions that push or pop (R35). -/
def usesStack : Instr → Bool
  | .push .. | .pop .. | .call .. | .ret => true
  | .halt | .set .. | .eq .. | .gt .. | .jmp .. | .jt .. | .jf .. | .add .. | .mult .. | .mod .. | .and .. | .or ..
  | .not .. | .rmem .. | .wmem .. | .out .. | .inp .. | .noop => false

/-- A word as the integer a snapshot holds. -/
abbrev asInt (w : Word) : Int := w.toNat

end Sys2Proof.Claims

open Sys2Proof Sys2Proof.Machine Sys2Proof.Claims

/-! Encoding -/

/-- R94, R104: decoding the words of any instruction, whatever follows them, gives it back and leaves what follows; and so
does decoding its bytes, low byte first (R67). Every operand word is at every one of its 65536 values. -/
def Obligations.DecodeEncodeRoundTrip : Prop :=
  (∀ (i : Instr) (rest : List Word), decode (encode i ++ rest) = .ok (i, rest)) ∧
  ∀ (i : Instr) (rest : List Byte), decodeBytes (bytesOfWords (encode i) ++ rest) = .ok (i, rest)

/-- R94, R103, R104: a list of words that decodes to an instruction begins with exactly that instruction's words. -/
def Obligations.DecodedWordsAreTheEncoding : Prop :=
  ∀ (ws rest : List Word) (i : Instr), decode ws = .ok (i, rest) → ws = encode i ++ rest

/-- The words of the spec's own examples decode to the instructions they stand for (R140 to R241, *Example* lines). -/
def Obligations.ExampleWordsDecode : Prop :=
  decode [0] = .ok (.halt, []) ∧
  decode [1, 32768, 3, 0] = .ok (.set 32768 3, [0]) ∧
  decode [4, 32768, 32769, 9] = .ok (.eq 32768 32769 9, []) ∧
  decode [6, 10] = .ok (.jmp 10, []) ∧
  decode [9, 32768, 32758, 15] = .ok (.add 32768 32758 15, []) ∧
  decode [15, 32768, 4, 7, 10] = .ok (.rmem 32768 4, [7, 10]) ∧
  decode [18] = .ok (.ret, []) ∧
  decode [20, 32768] = .ok (.inp 32768, []) ∧
  decode [22] = .error (.invalidOpcode 22) ∧
  decode [32768] = .error (.invalidOpcode 32768)

/-- R101, R261: an opcode word above 21 is no instruction, and fetching one at pc faults with INVALID_OPCODE, recording pc
and the raw word. -/
def Obligations.IllegalOpcodeFaults : Prop :=
  (∀ (op : Word) (ws : List Word), decode (op :: ws) = .error (.invalidOpcode op) ↔ 21 < op.toNat) ∧
  ∀ s : State, s.runState = .running → SlotThere s 0 → 21 < (s.cell s.pc.toNat).toNat →
    step s = .next (faultedAt s 1 s.pc (s.cell s.pc.toNat))

/-- R104: the opcode word alone fixes the length: an instruction has one word more than the arity of its opcode word, and an
opcode word has an arity exactly when it is at most 21. -/
def Obligations.OpcodeFixesTheLength : Prop :=
  (∀ i : Instr, ∃ n, arityOf i.opcode = some n ∧ (encode i).length = 1 + n ∧ n ≤ 3) ∧
  ∀ op : Word, arityOf op = none ↔ 21 < op.toNat

/-! The step -/

/-- R120, R123, R124: when RUNNING and the words of `i` stand in memory at pc, one step is `exec i`; the step adds nothing
around it, the move of pc is exec's. -/
def Obligations.StepRunsDecodedInstruction : Prop :=
  ∀ (s : State) (i : Instr), s.runState = .running →
    (∀ k w, (encode i)[k]? = some w → SlotThere s k ∧ s.cell (s.pc.toNat + k) = w) →
    step s = exec i s

/-- R121: an opcode fetch at or above N faults with MEM_RANGE, recording pc. -/
def Obligations.OpcodeFetchOutsideMemoryFaults : Prop :=
  ∀ s : State, s.runState = .running → s.memLimit.toNat ≤ s.pc.toNat →
    step s = .next (faultedAt s 4 s.pc 0)

/-- R123: an operand fetch at or above N faults with MEM_RANGE at the lowest missing slot, before any effect. -/
def Obligations.OperandFetchOutsideMemoryFaults : Prop :=
  ∀ (s : State) (n k : Nat), s.runState = .running → SlotThere s 0 →
    arityOf (s.cell s.pc.toNat) = some n → 1 ≤ k → k ≤ n →
    (∀ j, j < k → SlotThere s j) → ¬ SlotThere s k →
    step s = .next (faultedAt s 4 (BitVec.ofNat 16 (s.pc.toNat + k)) 0)

/-- R132, and R120 on WAIT_IN: no step from HALTED or FAULTED, and none from WAIT_IN without an action of the host. That
`step` then answers a stop under a name is the model's choice (log entry 6). -/
def Obligations.NoStepOfItsOwnWhenNotRunning : Prop :=
  ∀ s : State,
    (s.runState = .halted → step s = .fault .runHalted) ∧
    (s.runState = .faulted → step s = .fault .runFaulted) ∧
    (s.runState = .waitIn → s.hostQueue = [] → step s = .fault .waitingForHost)

/-- R313: a RUNNING machine always has a step, and it is never a stop of the model; R72, R281: the host's coming actions
have no part in it. -/
def Obligations.RunningMachineAlwaysSteps : Prop :=
  ∀ (s : State), s.runState = .running →
    ∃ t, step s = .next t ∧ ∀ q, step { s with hostQueue := q } = .next { t with hostQueue := q }

/-! The instructions -/

/-- R140: HALT ends the run; nothing but run_state changes. -/
def Obligations.HaltEndsTheRun : Prop :=
  encode .halt = [0] ∧ ∀ s : State, exec .halt s = .next { s with runState := .halted }

/-- R141: NOOP only moves pc by one. -/
def Obligations.NoopOnlyAdvances : Prop :=
  encode .noop = [21] ∧ ∀ s : State, exec .noop s = .next { s with pc := s.pc + 1 }

/-- R150: SET writes the value of b through the descriptor at pc+1. -/
def Obligations.SetCopiesItsSource : Prop :=
  ∀ (a b : Word) (s : State),
    encode (.set a b) = [1, a, b] ∧
    (∀ v, valueOf s b = some v → SlotThere s 1 →
      exec (.set a b) s = .next { delivered s v (s.pc.toNat + 1) with pc := s.pc + 3 }) ∧
    (valueOf s b = none → exec (.set a b) s = .next (faultedAt s 2 (s.pc + 2) b))

/-- R151: PUSH puts the value of a on the stack; a full stack faults. -/
def Obligations.PushAddsToTheStack : Prop :=
  ∀ (a : Word) (s : State),
    encode (.push a) = [2, a] ∧
    (∀ v, valueOf s a = some v → StackHasRoom s →
      exec (.push a) s = .next { s with stack := v :: s.stack, pc := s.pc + 2 }) ∧
    (valueOf s a = none → exec (.push a) s = .next (faultedAt s 2 (s.pc + 1) a)) ∧
    (∀ v, valueOf s a = some v → StackIsFull s → exec (.push a) s = .next (faultedAt s 6 0 0))

/-- R152: POP writes the top entry through the descriptor at pc+1; an empty stack faults. -/
def Obligations.PopWritesTheTop : Prop :=
  ∀ (a : Word) (s : State),
    encode (.pop a) = [3, a] ∧
    (∀ v st, s.stack = v :: st → SlotThere s 1 →
      exec (.pop a) s = .next { delivered { s with stack := st } v (s.pc.toNat + 1) with pc := s.pc + 2 }) ∧
    (s.stack = [] → exec (.pop a) s = .next (faultedAt s 3 0 0))

/-- R170: EQ writes 1 if the values are equal, else 0. -/
def Obligations.EqWritesEquality : Prop :=
  BinaryRule .eq 4 fun vb vc => if vb = vc then 1 else 0

/-- R171: GT writes 1 if b is greater than c as unsigned values, else 0. -/
def Obligations.GtWritesGreater : Prop :=
  BinaryRule .gt 5 fun vb vc => if vb.toNat > vc.toNat then 1 else 0

/-- R180: JMP goes to the value of a, unchecked. -/
def Obligations.JmpGoesToItsTarget : Prop :=
  ∀ (a : Word) (s : State),
    encode (.jmp a) = [6, a] ∧
    (∀ t, valueOf s a = some t → exec (.jmp a) s = .next { s with pc := t }) ∧
    (valueOf s a = none → exec (.jmp a) s = .next (faultedAt s 2 (s.pc + 1) a))

/-- R181: JT jumps to b when a is not 0; both operands are resolved in any case. -/
def Obligations.JtJumpsWhenNonZero : Prop := BranchRule .jt 7 fun c => c ≠ 0

/-- R182: JF jumps to b when a is 0; both operands are resolved in any case. -/
def Obligations.JfJumpsWhenZero : Prop := BranchRule .jf 8 fun c => c = 0

/-- R183: CALL pushes pc+2 and goes to the value of a; a bad target or a full stack pushes nothing. -/
def Obligations.CallPushesTheReturnAddress : Prop :=
  ∀ (a : Word) (s : State),
    encode (.call a) = [17, a] ∧
    (∀ t, valueOf s a = some t → StackHasRoom s →
      exec (.call a) s = .next { s with stack := (s.pc + 2) :: s.stack, pc := t }) ∧
    (valueOf s a = none → exec (.call a) s = .next (faultedAt s 2 (s.pc + 1) a)) ∧
    (∀ t, valueOf s a = some t → StackIsFull s → exec (.call a) s = .next (faultedAt s 6 0 0))

/-- R184: RET goes to the top entry and removes it; on an empty stack it ends the run as HALT does. -/
def Obligations.RetGoesToTheTop : Prop :=
  encode .ret = [18] ∧
  ∀ s : State,
    (∀ t st, s.stack = t :: st → exec .ret s = .next { s with stack := st, pc := t }) ∧
    (s.stack = [] → exec .ret s = .next { s with runState := .halted })

/-- R200: ADD writes the exact sum modulo 32768. -/
def Obligations.AddWritesTheSum : Prop :=
  BinaryRule .add 9 fun vb vc => BitVec.ofNat 16 ((vb.toNat + vc.toNat) % 32768)

/-- R201: MULT writes the exact product modulo 32768. -/
def Obligations.MultWritesTheProduct : Prop :=
  BinaryRule .mult 10 fun vb vc => BitVec.ofNat 16 ((vb.toNat * vc.toNat) % 32768)

/-- R202: MOD writes the unsigned remainder; a zero divisor faults with DIV_ZERO after both operands are checked. -/
def Obligations.ModWritesTheRemainder : Prop :=
  ∀ (a b c : Word) (s : State),
    encode (.mod a b c) = [11, a, b, c] ∧
    (∀ vb vc, valueOf s b = some vb → valueOf s c = some vc → vc ≠ 0 → SlotThere s 1 →
      exec (.mod a b c) s =
        .next { delivered s (BitVec.ofNat 16 (vb.toNat % vc.toNat)) (s.pc.toNat + 1) with pc := s.pc + 4 }) ∧
    (valueOf s b = none → exec (.mod a b c) s = .next (faultedAt s 2 (s.pc + 2) b)) ∧
    (∀ vb, valueOf s b = some vb → valueOf s c = none →
      exec (.mod a b c) s = .next (faultedAt s 2 (s.pc + 3) c)) ∧
    (∀ vb, valueOf s b = some vb → valueOf s c = some 0 →
      exec (.mod a b c) s = .next (faultedAt s 5 0 0))

/-- R203: AND writes the bitwise and of all 16 bits, not reduced. -/
def Obligations.AndWritesTheConjunction : Prop := BinaryRule .and 12 fun vb vc => vb &&& vc

/-- R204: OR writes the bitwise or of all 16 bits, not reduced. -/
def Obligations.OrWritesTheDisjunction : Prop := BinaryRule .or 13 fun vb vc => vb ||| vc

/-- R205: NOT writes the complement of the low 15 bits: 32767 less the value with its bit 15 ignored. -/
def Obligations.NotWritesTheComplement : Prop :=
  ∀ (a b : Word) (s : State),
    encode (.not a b) = [14, a, b] ∧
    (∀ vb, valueOf s b = some vb → SlotThere s 1 →
      exec (.not a b) s =
        .next { delivered s (BitVec.ofNat 16 (32767 - vb.toNat % 32768)) (s.pc.toNat + 1) with pc := s.pc + 3 }) ∧
    (valueOf s b = none → exec (.not a b) s = .next (faultedAt s 2 (s.pc + 2) b))

/-- R230: RMEM reads the cell at the value of b, resolves the word it finds, and writes that value through pc+1. -/
def Obligations.RmemReadsAndResolves : Prop :=
  ∀ (a b : Word) (s : State),
    encode (.rmem a b) = [15, a, b] ∧
    (∀ addr v, valueOf s b = some addr → addr.toNat < s.memLimit.toNat →
      valueOf s (s.cell addr.toNat) = some v → SlotThere s 1 →
      exec (.rmem a b) s = .next { delivered s v (s.pc.toNat + 1) with pc := s.pc + 3 }) ∧
    (valueOf s b = none → exec (.rmem a b) s = .next (faultedAt s 2 (s.pc + 2) b)) ∧
    (∀ addr, valueOf s b = some addr → s.memLimit.toNat ≤ addr.toNat →
      exec (.rmem a b) s = .next (faultedAt s 4 addr 0)) ∧
    (∀ addr, valueOf s b = some addr → addr.toNat < s.memLimit.toNat →
      valueOf s (s.cell addr.toNat) = none →
      exec (.rmem a b) s = .next (faultedAt s 2 addr (s.cell addr.toNat)))

/-- R231: WMEM writes the value of b through the descriptor at the value of a. -/
def Obligations.WmemWritesThrough : Prop :=
  ∀ (a b : Word) (s : State),
    encode (.wmem a b) = [16, a, b] ∧
    (∀ addr v, valueOf s a = some addr → valueOf s b = some v → addr.toNat < s.memLimit.toNat →
      exec (.wmem a b) s = .next { delivered s v addr.toNat with pc := s.pc + 3 }) ∧
    (valueOf s a = none → exec (.wmem a b) s = .next (faultedAt s 2 (s.pc + 1) a)) ∧
    (∀ addr, valueOf s a = some addr → valueOf s b = none →
      exec (.wmem a b) s = .next (faultedAt s 2 (s.pc + 2) b)) ∧
    (∀ addr v, valueOf s a = some addr → valueOf s b = some v → s.memLimit.toNat ≤ addr.toNat →
      exec (.wmem a b) s = .next (faultedAt s 4 addr 0))

/-- R240: OUT appends the value of a to the output stream, whatever it is. -/
def Obligations.OutEmitsItsValue : Prop :=
  ∀ (a : Word) (s : State),
    encode (.out a) = [19, a] ∧
    (∀ v, valueOf s a = some v →
      exec (.out a) s = .next { s with output := s.output ++ [v], pc := s.pc + 2 }) ∧
    (valueOf s a = none → exec (.out a) s = .next (faultedAt s 2 (s.pc + 1) a))

/-- R241: IN waits at its own pc; the host's response completes it: a code is written through pc+1 and the run goes on,
Retry runs the IN again, Terminate ends the run, Closed faults. -/
def Obligations.InWaitsAndIsCompleted : Prop :=
  ∀ (a : Word) (s : State),
    encode (.inp a) = [20, a] ∧
    exec (.inp a) s = .next { s with runState := .waitIn } ∧
    (∀ v q, s.runState = .waitIn → s.hostQueue = .respond (.char v) :: q → SlotThere s 1 →
      step s = .next { delivered { s with hostQueue := q } v (s.pc.toNat + 1) with
        pc := s.pc + 2, runState := .running }) ∧
    (∀ q, s.runState = .waitIn → s.hostQueue = .respond .retry :: q →
      step s = .next { s with hostQueue := q, runState := .running }) ∧
    (∀ q, s.runState = .waitIn → s.hostQueue = .respond .terminate :: q →
      step s = .next { s with hostQueue := q, runState := .halted }) ∧
    (∀ q, s.runState = .waitIn → s.hostQueue = .respond .closed :: q →
      step s = .next (faultedAt { s with hostQueue := q } 7 0 0))

/-! Memory, operands and the stack -/

/-- R61, R62: a read or a write at or above N raises MEM_RANGE with the address; below N a read gives the cell unchanged,
and after a write that cell reads as the value stored and every other address reads as before. -/
def Obligations.MemoryAccessIsRangeChecked : Prop :=
  ∀ (s : State) (a : Nat) (v : Word), s.Inv →
    (s.memLimit.toNat ≤ a →
      memRead s a = .error ⟨.memRange, a, 0⟩ ∧ memWrite s a v = .error ⟨.memRange, a, 0⟩) ∧
    (a < s.memLimit.toNat →
      memRead s a = .ok (s.cell a) ∧
      ∃ t, memWrite s a v = .ok t ∧ memRead t a = .ok v ∧ (∀ b, b ≠ a → memRead t b = memRead s b) ∧
        { t with mem := s.mem } = s)

/-- R64: WriteThrough writes the register when the word at the slot is a tag and the slot's own cell otherwise; R65: it
never faults for the descriptor's value, only for a slot at or above N. -/
def Obligations.WriteThroughFollowsTheDescriptor : Prop :=
  ∀ (s : State) (v : Word) (slot : Nat),
    (s.memLimit.toNat ≤ slot → writeThrough s v slot = .error ⟨.memRange, slot, 0⟩) ∧
    (slot < s.memLimit.toNat → writeThrough s v slot = .ok (delivered s v slot)) ∧
    (∀ i : RegIx, slot < s.memLimit.toNat → (s.cell slot).toNat = 32768 + i.toNat →
      writeThrough s v slot = .ok (s.setReg i v)) ∧
    (slot < s.memLimit.toNat → ¬ IsTag (s.cell slot) → writeThrough s v slot = .ok (s.setCell slot v))

/-- R97: the resolver on the three value ranges of a raw word; R98: tag 32768 + i names register i. -/
def Obligations.ResolverFollowsTheValueRanges : Prop :=
  ∀ (s : State) (w : Word) (addr : Nat),
    (w.toNat < 32768 → resolve s w addr = .ok w) ∧
    (∀ i : RegIx, w.toNat = 32768 + i.toNat → resolve s w addr = .ok (s.reg i)) ∧
    (32775 < w.toNat → resolve s w addr = .error ⟨.invalidOperand, addr, w⟩)

/-- R36, R37: Push on a full stack raises STACK_OVERFLOW and otherwise makes v the top; Pop takes the top, and on an empty
stack there is none; with STACK_DEPTH unbounded Push never fails. -/
def Obligations.StackIsLastInFirstOut : Prop :=
  ∀ (s : State) (v : Word),
    (StackIsFull s → push s v = .error ⟨.stackOverflow, 0, 0⟩) ∧
    (StackHasRoom s → ∃ t, push s v = .ok t ∧ pop t = some (v, s)) ∧
    (s.stackDepth = none → StackHasRoom s) ∧
    (pop s = none ↔ s.stack = [])

/-! Reset, load, restore and save -/

/-- R46: every value of a fresh reset that the spec gives. The image is the empty one (the model's choice, log entry 5), so
N is 0 and there is no cell. -/
def Obligations.ResetLeavesTheSpecValues : Prop :=
  (∀ i : RegIx, State.reset.reg i = 0) ∧ State.reset.pc = 0 ∧ State.reset.stack = [] ∧
  State.reset.memLimit = 0 ∧ State.reset.mem = [] ∧ State.reset.runState = .running ∧ State.reset.RecordClear

/-- R300: Load gives the fresh reset state of the image, little-endian (R67); an odd length (R304) or more than 32768 words
(R305) is refused. -/
def Obligations.LoadGivesTheFreshReset : Prop :=
  ∀ (image : List Byte) (depth : Config.StackDepth) (plans : List HostAction),
    (image.length % 2 = 1 → loadImage image depth plans = .error .oddLength) ∧
    (image.length % 2 = 0 → 32768 < image.length / 2 → loadImage image depth plans = .error .tooLarge) ∧
    (image.length % 2 = 0 → image.length / 2 ≤ 32768 →
      ∃ t, loadImage image depth plans = .ok t ∧
        t.memLimit.toNat = image.length / 2 ∧
        (∀ k, k < image.length / 2 →
          (t.cell k).toNat = (image.getD (2 * k) 0).toNat + 256 * (image.getD (2 * k + 1) 0).toNat) ∧
        (∀ i : RegIx, t.reg i = 0) ∧ t.stack = [] ∧ t.pc = 0 ∧ t.runState = .running ∧ t.RecordClear)

/-- R301: the empty image is accepted, and its first fetch faults with MEM_RANGE at address 0. -/
def Obligations.EmptyImageFaultsAtOnce : Prop :=
  ∀ (depth : Config.StackDepth) (plans : List HostAction),
    ∃ t, loadImage [] depth plans = .ok t ∧ t.pc = 0 ∧ step t = .next (faultedAt t 4 0 0)

/-- R302: Restore is a load and then the snapshot's registers, stack (bottom to top) and pc; an image that Load refuses
(R304, R305) is refused by Restore for the same reason, whatever the snapshot; R306: a snapshot with a missing field, a wrong
count, too deep a stack or a value outside 0..65535 is refused. -/
def Obligations.RestoreTakesTheSnapshot : Prop :=
  ∀ (image : List Byte) (depth : Config.StackDepth) (plans : List HostAction),
    (∀ snap e, loadImage image depth plans = .error e → restoreImage image snap depth plans = .error e) ∧
    ∀ t, loadImage image depth plans = .ok t →
      (∀ (regs : Vector Word 8) (stack : List Word) (pc : Word),
        (∀ d, depth = some d → stack.length ≤ d.val) →
        restoreImage image ⟨some (regs.toList.map asInt), some (stack.map asInt), some (asInt pc)⟩ depth plans =
          .ok { t with regs := regs, stack := stack.reverse, pc := pc }) ∧
      (∀ snap, snap.registers = none ∨ snap.stack = none ∨ snap.pc = none →
        restoreImage image snap depth plans = .error .malformedSnapshot) ∧
      (∀ snap rs, snap.registers = some rs → rs.length ≠ 8 →
        restoreImage image snap depth plans = .error .malformedSnapshot) ∧
      (∀ snap st d, snap.stack = some st → depth = some d → d.val < st.length →
        restoreImage image snap depth plans = .error .malformedSnapshot) ∧
      (∀ snap n, n < 0 ∨ 65535 < n →
        (∃ rs, snap.registers = some rs ∧ n ∈ rs) ∨ (∃ st, snap.stack = some st ∧ n ∈ st) ∨ snap.pc = some n →
        restoreImage image snap depth plans = .error .malformedSnapshot)

/-- R303, R68: restoring what Save wrote gives back the registers, the stack in its order, the pc, and every cell. The rest
is a fresh reset; STACK_DEPTH is that of the saved machine and the host's coming actions are its own (log entry 9). -/
def Obligations.SaveThenRestoreGivesTheState : Prop :=
  ∀ (s : State) (plans : List HostAction), s.Inv →
    restoreImage (saveImage s) (saveSnapshot s) s.stackDepth plans =
      .ok { State.reset with
        regs := s.regs, pc := s.pc, stack := s.stack, mem := s.mem, memLimit := s.memLimit
        stackDepth := s.stackDepth, hostQueue := plans }

/-- R274: the exit status is 0 exactly for HALTED and FAIL_STATUS for FAULTED; R273: a run can be observed exactly when it
is HALTED or FAULTED, and shows its run_state, output, registers, stack, pc and cells; R269: the diagnostic of a FAULTED run
gives the kind, fault_pc, and fault_addr and fault_value where the kind sets them (codes 1, 2 and 4, and codes 1 and 2,
R260), and a HALTED run has none. -/
def Obligations.EndedRunsAreObserved : Prop :=
  ∀ (s : State) (failStatus : Config.FailStatus),
    (exitStatus failStatus s.runState = some 0 ↔ s.runState = .halted) ∧
    (exitStatus failStatus s.runState = some failStatus.val ↔ s.runState = .faulted) ∧
    ((observe s).isSome = true ↔ s.runState = .halted ∨ s.runState = .faulted) ∧
    ∀ o, observe s = some o →
      o.runState = s.runState ∧ o.output = s.output ∧ o.pc = s.pc ∧ o.regs = s.regs ∧
      o.stack = s.stack.reverse ∧ o.cells = (List.range s.memLimit.toNat).map s.cell ∧
      (s.runState = .halted → o.diagnostic = none) ∧
      (s.Inv → s.runState = .faulted → ∃ d, o.diagnostic = some d ∧
        d.kind.code = s.faultCode ∧ d.faultPc = s.faultPc ∧ d.faultPc = s.pc ∧
        d.faultAddr = (if s.faultCode = 1 ∨ s.faultCode = 2 ∨ s.faultCode = 4 then some s.faultAddr else none) ∧
        d.faultValue = (if s.faultCode = 1 ∨ s.faultCode = 2 then some s.faultValue else none))

/-- R281, R282: while an IN waits, Save and the usage hint write nothing in the block, the patch is two plain writes that
follow no register tag, and each of the three answers the IN with Retry; R281 duty (a): every host action is exactly one
response, so the IN no longer waits after it; Save is possible in WAIT_IN alone. That a patch at or above N is refused is the
model's choice, which 93 allows (log entry 7); that the Retry is in the same step is the model's choice (log entry 8). -/
def Obligations.HostActsOnAWaitingMachine : Prop :=
  (∀ (s : State) (q : List HostAction), s.runState = .waitIn →
    (s.hostQueue = .save :: q → step s = .next { s with hostQueue := q, runState := .running }) ∧
    (s.hostQueue = .usageHint :: q → step s = .next { s with hostQueue := q, runState := .running }) ∧
    (∀ a0 v0 a1 v1, s.hostQueue = .patch a0 v0 a1 v1 :: q →
      a0.toNat < s.memLimit.toNat → a1.toNat < s.memLimit.toNat →
      step s = .next { s with
        hostQueue := q, runState := .running, mem := (s.mem.setWord a0.toNat v0).setWord a1.toNat v1 }) ∧
    (∀ a0 v0 a1 v1, s.hostQueue = .patch a0 v0 a1 v1 :: q →
      s.memLimit.toNat ≤ a0.toNat ∨ s.memLimit.toNat ≤ a1.toNat →
      step s = .refused .patchOutsideMemory)) ∧
  (∀ s t : State, s.runState = .waitIn → step s = .next t →
    t.runState ≠ .waitIn ∧ ∃ a, s.hostQueue = a :: t.hostQueue) ∧
  ∀ s : State, (s.runState = .waitIn → save s = some (saveImage s, saveSnapshot s)) ∧
    (s.runState ≠ .waitIn → save s = none)

/-! The whole machine -/

/-- R128, R268: a fault is precise. A step that ends in FAULTED changes only run_state and the fault record (and, in
WAIT_IN, takes the host's action off its list); the code is never 0 and fault_pc is the pc, which does not move. -/
def Obligations.FaultsArePrecise : Prop :=
  ∀ s t : State, step s = .next t → t.runState = .faulted →
    t = { faultedAt s t.faultCode t.faultAddr t.faultValue with hostQueue := t.hostQueue } ∧
    t.faultCode ≠ 0 ∧ t.faultPc = s.pc ∧ (s.runState = .running → t.hostQueue = s.hostQueue) ∧
    (s.runState = .waitIn → ∃ a, s.hostQueue = a :: t.hostQueue)

/-- R131: no step changes mem_limit (or the parameter STACK_DEPTH), and no step but a fault writes the fault record. -/
def Obligations.OnlyFaultsWriteTheRecord : Prop :=
  ∀ s t : State, step s = .next t →
    t.memLimit = s.memLimit ∧ t.stackDepth = s.stackDepth ∧
    (t.runState ≠ .faulted →
      t.faultCode = s.faultCode ∧ t.faultPc = s.faultPc ∧ t.faultAddr = s.faultAddr ∧ t.faultValue = s.faultValue)

/-- R272: run_state becomes HALTED in exactly three cases: HALT executes, RET executes with an empty stack, or the host
answers a waiting IN with Terminate; pc, the registers, the stack and memory then keep their values. -/
def Obligations.GracefulEndInExactlyThreeCases : Prop :=
  ∀ s t : State, step s = .next t →
    (t.runState = .halted ↔
      (s.runState = .running ∧ fetchInstr s = .ok .halt) ∨
      (s.runState = .running ∧ fetchInstr s = .ok .ret ∧ s.stack = []) ∨
      (s.runState = .waitIn ∧ ∃ q, s.hostQueue = .respond .terminate :: q)) ∧
    (t.runState = .halted → t.pc = s.pc ∧ t.regs = s.regs ∧ t.stack = s.stack ∧ t.mem = s.mem)

/-- R120, R241: a RUNNING machine comes to wait only by fetching an IN, and then waits at the same pc with all else as it
was. -/
def Obligations.OnlyInComesToWait : Prop :=
  ∀ s t : State, s.runState = .running → step s = .next t →
    (t.runState = .waitIn ↔ ∃ a, fetchInstr s = .ok (.inp a)) ∧
    (t.runState = .waitIn → t = { s with runState := .waitIn })

/-- R262 to R266: which instructions can raise which of their own faults: STACK_EMPTY only POP, DIV_ZERO only
MOD, STACK_OVERFLOW only PUSH and CALL, INVALID_OPERAND only for a source operand word above 32775 or RMEM's data word, MEM_RANGE only RMEM and WMEM (an
instruction that was fetched has its slot pc+1), INVALID_OPCODE and INPUT_CLOSED none. -/
def Obligations.FaultsComeFromTheirInstructions : Prop :=
  ∀ (i : Instr) (s t : State), s.runState = .running → exec i s = .next t → t.runState = .faulted →
    (t.faultCode = 3 → ∃ a, i = .pop a) ∧
    (t.faultCode = 5 → ∃ a b c, i = .mod a b c) ∧
    (t.faultCode = 6 → ∃ a, i = .push a ∨ i = .call a) ∧
    (t.faultCode = 2 → 32775 < t.faultValue.toNat ∧
      (t.faultValue ∈ i.sources ∨ ∃ a b, i = .rmem a b ∧ s.cell t.faultAddr.toNat = t.faultValue)) ∧
    (t.faultCode = 4 → (∃ a b, i = .rmem a b ∨ i = .wmem a b) ∨ ¬ SlotThere s 1) ∧
    t.faultCode ≠ 1 ∧ t.faultCode ≠ 7

/-- The frame of registers and memory for all 22 instructions (R31, R64, R73): every register but the one the descriptor at
the write address names is unchanged; every cell and every byte but those of the write address is unchanged; and where the
descriptor is a tag, or the instruction writes nothing, memory is unchanged as a whole. -/
def Obligations.InstructionsWriteOneRegisterOrCell : Prop :=
  ∀ (i : Instr) (s t : State), exec i s = .next t →
    (∀ r : RegIx, (∀ a, writeAddress i s = some a → (s.cell a).toNat ≠ 32768 + r.toNat) → t.reg r = s.reg r) ∧
    (∀ b, writeAddress i s ≠ some b → t.cell b = s.cell b) ∧
    (∀ k, (∀ a, writeAddress i s = some a → k ≠ 2 * a ∧ k ≠ 2 * a + 1) → t.mem.byteAt k = s.mem.byteAt k) ∧
    ((∀ a, writeAddress i s = some a → IsTag (s.cell a)) → t.mem = s.mem) ∧
    (t.regs = s.regs ∨ t.mem = s.mem)

/-- The frame of everything else for all 22 instructions (R44, R131): the stack changes only by PUSH, POP, CALL and RET, the
output stream only by OUT, the fault record only on a fault, and N, STACK_DEPTH and the host's actions never. -/
def Obligations.InstructionsLeaveTheRestAlone : Prop :=
  ∀ (i : Instr) (s t : State), exec i s = .next t →
    (usesStack i = false → t.stack = s.stack) ∧
    ((∀ a, i ≠ .out a) → t.output = s.output) ∧
    (t.runState ≠ .faulted →
      t.faultCode = s.faultCode ∧ t.faultPc = s.faultPc ∧ t.faultAddr = s.faultAddr ∧ t.faultValue = s.faultValue) ∧
    t.memLimit = s.memLimit ∧ t.stackDepth = s.stackDepth ∧ t.hostQueue = s.hostQueue

/-- One step's share of what R32 derives; the one-step form without a patch is the model's choice, since R32's range does
not hold over a whole run (log entry 17). When every register, stack entry and input code is at most 32767 and the host patches nothing, one step leaves
registers at most 32767 and stack entries at most 32768 (CALL at 32766 pushes 32768), and every cell it changes is at most
32767. -/
def Obligations.StepKeepsValuesInRange : Prop :=
  ∀ s t : State, s.Inv → (∀ i : RegIx, (s.reg i).toNat ≤ 32767) → (∀ v ∈ s.stack, v.toNat ≤ 32767) →
    (∀ v, .respond (.char v) ∈ s.hostQueue → v.toNat ≤ 32767) →
    (∀ a0 v0 a1 v1, .patch a0 v0 a1 v1 ∉ s.hostQueue) → step s = .next t →
    (∀ i : RegIx, (t.reg i).toNat ≤ 32767) ∧ (∀ v ∈ t.stack, v.toNat ≤ 32768) ∧
    (∀ a, t.cell a ≠ s.cell a → (t.cell a).toNat ≤ 32767)

/-- R185: after CALL, whatever the callee did as long as it left the stack as it found it, RET goes to the word after the
CALL with the caller's stack. -/
def Obligations.CallThenRetReturns : Prop :=
  ∀ (s t u : State) (a target : Word), valueOf s a = some target → StackHasRoom s → exec (.call a) s = .next t →
    u.stack = t.stack → exec .ret u = .next { u with stack := s.stack, pc := s.pc + 2 }

/-- R76, R311: a WMEM that overwrites the next instruction's opcode word is seen by the very next fetch. -/
def Obligations.StoreIntoCodeIsFetchedNext : Prop :=
  ∀ (s : State) (a b v : Word), s.Inv → s.runState = .running → fetchInstr s = .ok (.wmem a b) →
    valueOf s a = some (s.pc + 3) → valueOf s b = some v → SlotThere s 3 → ¬ IsTag (s.cell (s.pc.toNat + 3)) →
    ∃ t, step s = .next t ∧ t.pc = s.pc + 3 ∧ memRead t t.pc.toNat = .ok v ∧
      (21 < v.toNat → step t = .next (faultedAt t 1 t.pc v))

/-- R34: an instruction that is fetched lies wholly below N, so the address after it never wraps. -/
def Obligations.FetchedInstructionLiesInMemory : Prop :=
  ∀ (s : State) (i : Instr), s.Inv → fetchInstr s = .ok i →
    s.pc.toNat + (encode i).length ≤ s.memLimit.toNat ∧
    (s.pc + BitVec.ofNat 16 (encode i).length).toNat = s.pc.toNat + (encode i).length ∧
    ∀ k w, (encode i)[k]? = some w → s.cell (s.pc.toNat + k) = w

/-- The invariant holds at reset. -/
def Obligations.ResetMeetsTheInvariant : Prop := State.reset.Inv

/-- The invariant holds after every load and every restore that is not refused, for every value of STACK_DEPTH. -/
def Obligations.LoadMeetsTheInvariant : Prop :=
  ∀ (image : List Byte) (snap : Snapshot) (depth : Config.StackDepth) (plans : List HostAction) (t : State),
    loadImage image depth plans = .ok t ∨ restoreImage image snap depth plans = .ok t → t.Inv ∧ t.runState = .running

/-- The invariant (memory canonical and inside N, N at most 32768, the stack within STACK_DEPTH, the fault record 0 unless
FAULTED and then one its kind can have, a waiting IN with its operand slot in memory) is kept by every step from every
state that meets it. -/
def Obligations.EveryStepKeepsTheInvariant : Prop :=
  ∀ s t : State, s.Inv → step s = .next t → t.Inv

/-! The life of a run -/

/-- R281, R307: Load is possible before a run and, of a run, when it is finished; Restore before a run alone; each sets the
whole state anew; nothing steps before an image is loaded. Three clauses are the model's choice and not R281's (log entry 9):
a move the host does not have is refused with the error runInProgress; before a run a second load, a Restore's own too, may
replace the first; and the STACK_DEPTH and the host's plans there were stay. -/
def Obligations.LoadAndRestoreComeBeforeARun : Prop :=
  ∀ (image : List Byte) (snap : Snapshot) (depth : Config.StackDepth) (plans : List HostAction) (s : State),
    (∀ t, loadImage image depth plans = .ok t →
      (Session.empty depth plans).load image = .ok (.loaded t) ∧
      (s.stackDepth = depth → s.hostQueue = plans →
        (Session.loaded s).load image = .ok (.loaded t) ∧
        (s.runState = .halted ∨ s.runState = .faulted → (Session.run s).load image = .ok (.loaded t)))) ∧
    (∀ t, restoreImage image snap depth plans = .ok t →
      (Session.empty depth plans).restore image snap = .ok (.loaded t) ∧
      (s.stackDepth = depth → s.hostQueue = plans → (Session.loaded s).restore image snap = .ok (.loaded t))) ∧
    (s.runState = .running ∨ s.runState = .waitIn → (Session.run s).load image = .error .runInProgress) ∧
    (Session.run s).restore image snap = .error .runInProgress ∧
    (Session.empty depth plans).step = none

/-- R281, R307: whatever images and snapshots the host loads and whatever it does, the block's state meets the invariant,
and is RUNNING with a clear fault record when a run is about to start. -/
def Obligations.EveryReachedSessionMeetsTheInvariant : Prop :=
  ∀ x : Session, x.Reached →
    (∀ s, x.block = some s → s.Inv) ∧ ∀ s, x = .loaded s → s.runState = .running ∧ s.RecordClear
end

