-- ==== Sys2Proof/Laws/State.lean ====
section
/-! SUPPORT. Each update of State, field by field: one lemma per field, true by rfl, so that no proof unfolds an update. -/

namespace Sys2Proof.Machine

variable (s : State)

@[simp] theorem State.setReg_regs (i : RegIx) (v : Word) : (s.setReg i v).regs = s.regs.set i.toNat v i.isLt := rfl
@[simp] theorem State.setReg_pc (i : RegIx) (v : Word) : (s.setReg i v).pc = s.pc := rfl
@[simp] theorem State.setReg_stack (i : RegIx) (v : Word) : (s.setReg i v).stack = s.stack := rfl
@[simp] theorem State.setReg_mem (i : RegIx) (v : Word) : (s.setReg i v).mem = s.mem := rfl
@[simp] theorem State.setReg_memLimit (i : RegIx) (v : Word) : (s.setReg i v).memLimit = s.memLimit := rfl
@[simp] theorem State.setReg_runState (i : RegIx) (v : Word) : (s.setReg i v).runState = s.runState := rfl
@[simp] theorem State.setReg_faultCode (i : RegIx) (v : Word) : (s.setReg i v).faultCode = s.faultCode := rfl
@[simp] theorem State.setReg_faultPc (i : RegIx) (v : Word) : (s.setReg i v).faultPc = s.faultPc := rfl
@[simp] theorem State.setReg_faultAddr (i : RegIx) (v : Word) : (s.setReg i v).faultAddr = s.faultAddr := rfl
@[simp] theorem State.setReg_faultValue (i : RegIx) (v : Word) : (s.setReg i v).faultValue = s.faultValue := rfl
@[simp] theorem State.setReg_stackDepth (i : RegIx) (v : Word) : (s.setReg i v).stackDepth = s.stackDepth := rfl
@[simp] theorem State.setReg_output (i : RegIx) (v : Word) : (s.setReg i v).output = s.output := rfl
@[simp] theorem State.setReg_hostQueue (i : RegIx) (v : Word) : (s.setReg i v).hostQueue = s.hostQueue := rfl

@[simp] theorem State.setPc_regs (p : Word) : (s.setPc p).regs = s.regs := rfl
@[simp] theorem State.setPc_pc (p : Word) : (s.setPc p).pc = p := rfl
@[simp] theorem State.setPc_stack (p : Word) : (s.setPc p).stack = s.stack := rfl
@[simp] theorem State.setPc_mem (p : Word) : (s.setPc p).mem = s.mem := rfl
@[simp] theorem State.setPc_memLimit (p : Word) : (s.setPc p).memLimit = s.memLimit := rfl
@[simp] theorem State.setPc_runState (p : Word) : (s.setPc p).runState = s.runState := rfl
@[simp] theorem State.setPc_faultCode (p : Word) : (s.setPc p).faultCode = s.faultCode := rfl
@[simp] theorem State.setPc_faultPc (p : Word) : (s.setPc p).faultPc = s.faultPc := rfl
@[simp] theorem State.setPc_faultAddr (p : Word) : (s.setPc p).faultAddr = s.faultAddr := rfl
@[simp] theorem State.setPc_faultValue (p : Word) : (s.setPc p).faultValue = s.faultValue := rfl
@[simp] theorem State.setPc_stackDepth (p : Word) : (s.setPc p).stackDepth = s.stackDepth := rfl
@[simp] theorem State.setPc_output (p : Word) : (s.setPc p).output = s.output := rfl
@[simp] theorem State.setPc_hostQueue (p : Word) : (s.setPc p).hostQueue = s.hostQueue := rfl

@[simp] theorem State.setStack_regs (st : List Word) : (s.setStack st).regs = s.regs := rfl
@[simp] theorem State.setStack_pc (st : List Word) : (s.setStack st).pc = s.pc := rfl
@[simp] theorem State.setStack_stack (st : List Word) : (s.setStack st).stack = st := rfl
@[simp] theorem State.setStack_mem (st : List Word) : (s.setStack st).mem = s.mem := rfl
@[simp] theorem State.setStack_memLimit (st : List Word) : (s.setStack st).memLimit = s.memLimit := rfl
@[simp] theorem State.setStack_runState (st : List Word) : (s.setStack st).runState = s.runState := rfl
@[simp] theorem State.setStack_faultCode (st : List Word) : (s.setStack st).faultCode = s.faultCode := rfl
@[simp] theorem State.setStack_faultPc (st : List Word) : (s.setStack st).faultPc = s.faultPc := rfl
@[simp] theorem State.setStack_faultAddr (st : List Word) : (s.setStack st).faultAddr = s.faultAddr := rfl
@[simp] theorem State.setStack_faultValue (st : List Word) : (s.setStack st).faultValue = s.faultValue := rfl
@[simp] theorem State.setStack_stackDepth (st : List Word) : (s.setStack st).stackDepth = s.stackDepth := rfl
@[simp] theorem State.setStack_output (st : List Word) : (s.setStack st).output = s.output := rfl
@[simp] theorem State.setStack_hostQueue (st : List Word) : (s.setStack st).hostQueue = s.hostQueue := rfl

@[simp] theorem State.setCell_regs (a : Nat) (v : Word) : (s.setCell a v).regs = s.regs := rfl
@[simp] theorem State.setCell_pc (a : Nat) (v : Word) : (s.setCell a v).pc = s.pc := rfl
@[simp] theorem State.setCell_stack (a : Nat) (v : Word) : (s.setCell a v).stack = s.stack := rfl
@[simp] theorem State.setCell_mem (a : Nat) (v : Word) : (s.setCell a v).mem = s.mem.setWord a v := rfl
@[simp] theorem State.setCell_memLimit (a : Nat) (v : Word) : (s.setCell a v).memLimit = s.memLimit := rfl
@[simp] theorem State.setCell_runState (a : Nat) (v : Word) : (s.setCell a v).runState = s.runState := rfl
@[simp] theorem State.setCell_faultCode (a : Nat) (v : Word) : (s.setCell a v).faultCode = s.faultCode := rfl
@[simp] theorem State.setCell_faultPc (a : Nat) (v : Word) : (s.setCell a v).faultPc = s.faultPc := rfl
@[simp] theorem State.setCell_faultAddr (a : Nat) (v : Word) : (s.setCell a v).faultAddr = s.faultAddr := rfl
@[simp] theorem State.setCell_faultValue (a : Nat) (v : Word) : (s.setCell a v).faultValue = s.faultValue := rfl
@[simp] theorem State.setCell_stackDepth (a : Nat) (v : Word) : (s.setCell a v).stackDepth = s.stackDepth := rfl
@[simp] theorem State.setCell_output (a : Nat) (v : Word) : (s.setCell a v).output = s.output := rfl
@[simp] theorem State.setCell_hostQueue (a : Nat) (v : Word) : (s.setCell a v).hostQueue = s.hostQueue := rfl

@[simp] theorem State.setRunState_regs (r : RunState) : (s.setRunState r).regs = s.regs := rfl
@[simp] theorem State.setRunState_pc (r : RunState) : (s.setRunState r).pc = s.pc := rfl
@[simp] theorem State.setRunState_stack (r : RunState) : (s.setRunState r).stack = s.stack := rfl
@[simp] theorem State.setRunState_mem (r : RunState) : (s.setRunState r).mem = s.mem := rfl
@[simp] theorem State.setRunState_memLimit (r : RunState) : (s.setRunState r).memLimit = s.memLimit := rfl
@[simp] theorem State.setRunState_runState (r : RunState) : (s.setRunState r).runState = r := rfl
@[simp] theorem State.setRunState_faultCode (r : RunState) : (s.setRunState r).faultCode = s.faultCode := rfl
@[simp] theorem State.setRunState_faultPc (r : RunState) : (s.setRunState r).faultPc = s.faultPc := rfl
@[simp] theorem State.setRunState_faultAddr (r : RunState) : (s.setRunState r).faultAddr = s.faultAddr := rfl
@[simp] theorem State.setRunState_faultValue (r : RunState) : (s.setRunState r).faultValue = s.faultValue := rfl
@[simp] theorem State.setRunState_stackDepth (r : RunState) : (s.setRunState r).stackDepth = s.stackDepth := rfl
@[simp] theorem State.setRunState_output (r : RunState) : (s.setRunState r).output = s.output := rfl
@[simp] theorem State.setRunState_hostQueue (r : RunState) : (s.setRunState r).hostQueue = s.hostQueue := rfl

@[simp] theorem State.emit_regs (v : Word) : (s.emit v).regs = s.regs := rfl
@[simp] theorem State.emit_pc (v : Word) : (s.emit v).pc = s.pc := rfl
@[simp] theorem State.emit_stack (v : Word) : (s.emit v).stack = s.stack := rfl
@[simp] theorem State.emit_mem (v : Word) : (s.emit v).mem = s.mem := rfl
@[simp] theorem State.emit_memLimit (v : Word) : (s.emit v).memLimit = s.memLimit := rfl
@[simp] theorem State.emit_runState (v : Word) : (s.emit v).runState = s.runState := rfl
@[simp] theorem State.emit_faultCode (v : Word) : (s.emit v).faultCode = s.faultCode := rfl
@[simp] theorem State.emit_faultPc (v : Word) : (s.emit v).faultPc = s.faultPc := rfl
@[simp] theorem State.emit_faultAddr (v : Word) : (s.emit v).faultAddr = s.faultAddr := rfl
@[simp] theorem State.emit_faultValue (v : Word) : (s.emit v).faultValue = s.faultValue := rfl
@[simp] theorem State.emit_stackDepth (v : Word) : (s.emit v).stackDepth = s.stackDepth := rfl
@[simp] theorem State.emit_output (v : Word) : (s.emit v).output = s.output ++ [v] := rfl
@[simp] theorem State.emit_hostQueue (v : Word) : (s.emit v).hostQueue = s.hostQueue := rfl

@[simp] theorem State.setQueue_regs (q : List HostAction) : (s.setQueue q).regs = s.regs := rfl
@[simp] theorem State.setQueue_pc (q : List HostAction) : (s.setQueue q).pc = s.pc := rfl
@[simp] theorem State.setQueue_stack (q : List HostAction) : (s.setQueue q).stack = s.stack := rfl
@[simp] theorem State.setQueue_mem (q : List HostAction) : (s.setQueue q).mem = s.mem := rfl
@[simp] theorem State.setQueue_memLimit (q : List HostAction) : (s.setQueue q).memLimit = s.memLimit := rfl
@[simp] theorem State.setQueue_runState (q : List HostAction) : (s.setQueue q).runState = s.runState := rfl
@[simp] theorem State.setQueue_faultCode (q : List HostAction) : (s.setQueue q).faultCode = s.faultCode := rfl
@[simp] theorem State.setQueue_faultPc (q : List HostAction) : (s.setQueue q).faultPc = s.faultPc := rfl
@[simp] theorem State.setQueue_faultAddr (q : List HostAction) : (s.setQueue q).faultAddr = s.faultAddr := rfl
@[simp] theorem State.setQueue_faultValue (q : List HostAction) : (s.setQueue q).faultValue = s.faultValue := rfl
@[simp] theorem State.setQueue_stackDepth (q : List HostAction) : (s.setQueue q).stackDepth = s.stackDepth := rfl
@[simp] theorem State.setQueue_output (q : List HostAction) : (s.setQueue q).output = s.output := rfl
@[simp] theorem State.setQueue_hostQueue (q : List HostAction) : (s.setQueue q).hostQueue = q := rfl

@[simp] theorem State.enterFault_regs (f : FaultInfo) : (s.enterFault f).regs = s.regs := rfl
@[simp] theorem State.enterFault_pc (f : FaultInfo) : (s.enterFault f).pc = s.pc := rfl
@[simp] theorem State.enterFault_stack (f : FaultInfo) : (s.enterFault f).stack = s.stack := rfl
@[simp] theorem State.enterFault_mem (f : FaultInfo) : (s.enterFault f).mem = s.mem := rfl
@[simp] theorem State.enterFault_memLimit (f : FaultInfo) : (s.enterFault f).memLimit = s.memLimit := rfl
@[simp] theorem State.enterFault_runState (f : FaultInfo) : (s.enterFault f).runState = .faulted := rfl
@[simp] theorem State.enterFault_faultCode (f : FaultInfo) : (s.enterFault f).faultCode = f.kind.code := rfl
@[simp] theorem State.enterFault_faultPc (f : FaultInfo) : (s.enterFault f).faultPc = s.pc := rfl
@[simp] theorem State.enterFault_faultAddr (f : FaultInfo) : (s.enterFault f).faultAddr = BitVec.ofNat 16 f.addr := rfl
@[simp] theorem State.enterFault_faultValue (f : FaultInfo) : (s.enterFault f).faultValue = f.value := rfl
@[simp] theorem State.enterFault_stackDepth (f : FaultInfo) : (s.enterFault f).stackDepth = s.stackDepth := rfl
@[simp] theorem State.enterFault_output (f : FaultInfo) : (s.enterFault f).output = s.output := rfl
@[simp] theorem State.enterFault_hostQueue (f : FaultInfo) : (s.enterFault f).hostQueue = s.hostQueue := rfl

end Sys2Proof.Machine
end

