-- ==== Sys2Proof/Laws/Memory.lean ====
section
/-! SUPPORT. Memory: what a read gives after a write, and that every operation keeps the canonical form. -/

namespace Sys2Proof.Machine

/-- Every key of a memory is at least `k`. -/
abbrev Memory.From (k : Nat) (m : Memory) : Prop := ∀ c ∈ m, k ≤ c.1

@[simp] theorem Memory.byteAt_nil (k : Nat) : Memory.byteAt [] k = 0 := rfl

theorem Memory.byteAt_eq_zero_of_not_mem : ∀ {m : Memory} {k : Nat}, (∀ c ∈ m, c.1 ≠ k) → m.byteAt k = 0
  | [], _, _ => rfl
  | c :: m, k, h => by
    have hc : c.1 ≠ k := h c (by simp)
    simpa [Memory.byteAt, hc] using Memory.byteAt_eq_zero_of_not_mem fun d hd => h d (by simp [hd])

theorem Memory.byteAt_cons (k : Nat) (b : Byte) (m : Memory) (hk : Memory.From (k + 1) m) (j : Nat) :
    (Memory.putFirst k b m).byteAt j = if k = j then b else m.byteAt j := by
  unfold Memory.putFirst
  by_cases hb : b = Memory.unlisted
  · rw [if_pos hb]
    by_cases hj : k = j
    · have hz : m.byteAt j = 0 := Memory.byteAt_eq_zero_of_not_mem fun c hc h => by
        have := hk c hc
        omega
      rw [if_pos hj, hz, hb]
    · rw [if_neg hj]
  · rw [if_neg hb, Memory.byteAt]

theorem Memory.wf_tail {c : Host.Cell} {m : Memory} (h : Memory.wf (c :: m)) : Memory.wf m :=
  ⟨(List.pairwise_cons.1 h.1).2, fun d hd => h.2 d (by simp [hd])⟩

theorem Memory.wf_from_tail {c : Host.Cell} {m : Memory} (h : Memory.wf (c :: m)) : Memory.From (c.1 + 1) m :=
  fun d hd => (List.pairwise_cons.1 h.1).1 d hd

theorem Memory.wf_nil : Memory.wf [] := ⟨List.Pairwise.nil, by simp⟩

theorem Memory.wf_putFirst {k : Nat} {b : Byte} {m : Memory} (hk : Memory.From (k + 1) m) (h : Memory.wf m) :
    Memory.wf (Memory.putFirst k b m) := by
  unfold Memory.putFirst
  split
  · exact h
  · rename_i hb
    refine ⟨List.pairwise_cons.2 ⟨fun d hd => hk d hd, h.1⟩, fun d hd => ?_⟩
    rcases List.mem_cons.1 hd with rfl | hd
    · exact hb
    · exact h.2 d hd

theorem Memory.mem_putFirst {k : Nat} {b : Byte} {m : Memory} {c : Host.Cell} (h : c ∈ Memory.putFirst k b m) :
    c.1 = k ∨ c ∈ m := by
  unfold Memory.putFirst at h
  split at h
  · exact .inr h
  · rcases List.mem_cons.1 h with rfl | h
    · exact .inl rfl
    · exact .inr h

/-- A write adds no key but its own. -/
theorem Memory.mem_setByte : ∀ {m : Memory} {k : Nat} {b : Byte} {c : Host.Cell}, c ∈ m.setByte k b → c.1 = k ∨ c ∈ m
  | [], _, _, _, h => Memory.mem_putFirst h
  | d :: m, k, b, c, h => by
    unfold Memory.setByte at h
    split at h
    · exact Memory.mem_putFirst h
    · split at h
      · exact (Memory.mem_putFirst h).imp_right (List.mem_cons_of_mem _)
      · rcases List.mem_cons.1 h with rfl | h
        · exact .inr (by simp)
        · exact (Memory.mem_setByte h).imp_right (List.mem_cons_of_mem _)

theorem Memory.wf_setByte : ∀ {m : Memory} {k : Nat} {b : Byte}, m.wf → (m.setByte k b).wf
  | [], _, _, h => Memory.wf_putFirst (by simp) h
  | c :: m, k, b, h => by
    have ht := Memory.wf_tail h
    have hf := Memory.wf_from_tail h
    unfold Memory.setByte
    split
    · rename_i hk
      refine Memory.wf_putFirst (fun d hd => ?_) h
      rcases List.mem_cons.1 hd with rfl | hd
      · exact hk
      · exact le_trans (by omega) (hf d hd)
    · split
      · rename_i hk
        exact Memory.wf_putFirst (fun d hd => hk ▸ hf d hd) ht
      · rename_i hlt hne
        have hw := Memory.wf_setByte (k := k) (b := b) ht
        refine ⟨List.pairwise_cons.2 ⟨fun d hd => ?_, hw.1⟩, fun d hd => ?_⟩
        · rcases Memory.mem_setByte hd with h' | h'
          · omega
          · exact hf d h'
        · rcases List.mem_cons.1 hd with rfl | hd
          · exact h.2 _ (by simp)
          · exact hw.2 d hd

/-- A read after a write: the byte written at its key, every other byte as before. -/
theorem Memory.byteAt_setByte : ∀ {m : Memory} (k : Nat) (b : Byte) (j : Nat), m.wf →
    (m.setByte k b).byteAt j = if k = j then b else m.byteAt j
  | [], k, b, j, _ => Memory.byteAt_cons k b [] (by simp) j
  | c :: m, k, b, j, h => by
    have hf := Memory.wf_from_tail h
    unfold Memory.setByte
    split
    · rename_i hk
      refine Memory.byteAt_cons k b _ (fun d hd => ?_) j
      rcases List.mem_cons.1 hd with rfl | hd
      · exact hk
      · exact le_trans (by omega) (hf d hd)
    · split
      · rename_i hk
        rw [Memory.byteAt_cons k b m (fun d hd => hk ▸ hf d hd) j]
        by_cases hj : k = j
        · simp [hj]
        · have : c.1 ≠ j := by omega
          simp [Memory.byteAt, hj, this]
      · rename_i hlt hne
        have ih := Memory.byteAt_setByte k b j (Memory.wf_tail h)
        by_cases hc : c.1 = j
        · have : k ≠ j := by omega
          simp [Memory.byteAt, hc, this]
        · simp [Memory.byteAt, hc, ih]

theorem Memory.byteAt_putFirst_of_ne {k j : Nat} (b : Byte) (m : Memory) (h : k ≠ j) :
    (Memory.putFirst k b m).byteAt j = m.byteAt j := by
  unfold Memory.putFirst
  split
  · rfl
  · simp [Memory.byteAt, h]

/-- A write leaves every other byte as it was, in any list of cells, canonical or not. -/
theorem Memory.byteAt_setByte_of_ne : ∀ (m : Memory) {k j : Nat} (b : Byte), k ≠ j → (m.setByte k b).byteAt j = m.byteAt j
  | [], _, _, b, h => Memory.byteAt_putFirst_of_ne b [] h
  | c :: m, k, j, b, h => by
    unfold Memory.setByte
    split
    · exact Memory.byteAt_putFirst_of_ne b _ h
    · split
      · rename_i hk
        have : c.1 ≠ j := by omega
        rw [Memory.byteAt_putFirst_of_ne b _ h, Memory.byteAt, if_neg this]
      · simp only [Memory.byteAt, Memory.byteAt_setByte_of_ne m b h]

theorem Memory.wf_setWord {m : Memory} {a : Nat} {w : Word} (h : m.wf) : (m.setWord a w).wf :=
  Memory.wf_setByte (Memory.wf_setByte h)

theorem Memory.mem_setWord {m : Memory} {a : Nat} {w : Word} {c : Host.Cell} (h : c ∈ m.setWord a w) :
    c.1 = 2 * a ∨ c.1 = 2 * a + 1 ∨ c ∈ m := by
  rcases Memory.mem_setByte h with h | h
  · exact .inr (.inl h)
  · rcases Memory.mem_setByte h with h | h
    · exact .inl h
    · exact .inr (.inr h)

@[simp] theorem wordOfBytes_low_high (w : Word) : wordOfBytes (lowByte w) (highByte w) = w := by
  apply BitVec.eq_of_toNat_eq
  have := w.isLt
  simp only [wordOfBytes, lowByte, highByte, BitVec.toNat_ofNat]
  omega

@[simp] theorem lowByte_wordOfBytes (lo hi : Byte) : lowByte (wordOfBytes lo hi) = lo := by
  apply BitVec.eq_of_toNat_eq
  have := lo.isLt
  have := hi.isLt
  simp only [wordOfBytes, lowByte, BitVec.toNat_ofNat]
  omega

@[simp] theorem highByte_wordOfBytes (lo hi : Byte) : highByte (wordOfBytes lo hi) = hi := by
  apply BitVec.eq_of_toNat_eq
  have := lo.isLt
  have := hi.isLt
  simp only [wordOfBytes, highByte, BitVec.toNat_ofNat]
  omega

theorem Memory.byteAt_setWord {m : Memory} (h : m.wf) (a : Nat) (w : Word) (j : Nat) :
    (m.setWord a w).byteAt j =
      if 2 * a + 1 = j then highByte w else if 2 * a = j then lowByte w else m.byteAt j := by
  rw [Memory.setWord, Memory.byteAt_setByte _ _ _ (Memory.wf_setByte h), Memory.byteAt_setByte _ _ _ h]

/-- The cell written holds the word written; every other cell is as before (R70). -/
theorem Memory.word_setWord {m : Memory} (h : m.wf) (a : Nat) (w : Word) (b : Nat) :
    (m.setWord a w).word b = if a = b then w else m.word b := by
  unfold Memory.word
  rw [Memory.byteAt_setWord h, Memory.byteAt_setWord h]
  by_cases hab : a = b
  · subst hab
    simp [wordOfBytes_low_high]
  · have h1 : ¬ 2 * a + 1 = 2 * b := by omega
    have h2 : ¬ 2 * a = 2 * b := by omega
    have h3 : ¬ 2 * a + 1 = 2 * b + 1 := by omega
    have h4 : ¬ 2 * a = 2 * b + 1 := by omega
    simp only [if_neg h1, if_neg h2, if_neg h3, if_neg h4, if_neg hab]

/-- Writing a cell leaves every other cell as it was, in any list of cells, canonical or not. -/
theorem Memory.word_setWord_of_ne (m : Memory) {a b : Nat} (w : Word) (h : a ≠ b) : (m.setWord a w).word b = m.word b := by
  unfold Memory.word Memory.setWord
  rw [Memory.byteAt_setByte_of_ne _ _ (by omega), Memory.byteAt_setByte_of_ne _ _ (by omega),
    Memory.byteAt_setByte_of_ne _ _ (by omega), Memory.byteAt_setByte_of_ne _ _ (by omega)]

theorem Memory.wf_setWords {m : Memory} (h : m.wf) : ∀ (ws : List Word) (a : Nat), (m.setWords a ws).wf := by
  intro ws
  induction ws generalizing m with
  | nil => exact fun _ => h
  | cons w ws ih => exact fun a => ih (Memory.wf_setWord h) (a + 1)

theorem Memory.ofBytes_from : ∀ (bs : List Byte) (k : Nat), Memory.From k (Memory.ofBytes k bs)
  | [], _ => by simp [Memory.ofBytes]
  | _ :: bs, k => fun c hc => by
    rcases Memory.mem_putFirst hc with h | h
    · omega
    · exact le_trans (by omega) (Memory.ofBytes_from bs (k + 1) c h)

theorem Memory.wf_ofBytes : ∀ (bs : List Byte) (k : Nat), (Memory.ofBytes k bs).wf
  | [], _ => Memory.wf_nil
  | _ :: bs, k => Memory.wf_putFirst (Memory.ofBytes_from bs (k + 1)) (Memory.wf_ofBytes bs (k + 1))

/-- The byte at key `k + i` of a memory made from bytes is byte `i`. -/
theorem Memory.byteAt_ofBytes : ∀ (bs : List Byte) (k i : Nat), (Memory.ofBytes k bs).byteAt (k + i) = bs.getD i 0
  | [], _, _ => rfl
  | b :: bs, k, i => by
    rw [Memory.ofBytes, Memory.byteAt_cons k b _ (Memory.ofBytes_from bs (k + 1))]
    cases i with
    | zero => simp
    | succ i =>
      have h := Memory.byteAt_ofBytes bs (k + 1) i
      have e : k + 1 + i = k + (i + 1) := by omega
      rw [e] at h
      simp [h]

theorem Memory.mem_ofBytes_lt : ∀ (bs : List Byte) (k : Nat), ∀ c ∈ Memory.ofBytes k bs, c.1 < k + bs.length
  | [], _, c, h => by simp [Memory.ofBytes] at h
  | b :: bs, k, c, h => by
    rcases Memory.mem_putFirst h with h | h
    · simp [h]
    · have := Memory.mem_ofBytes_lt bs (k + 1) c h
      simp only [List.length_cons]
      omega

/-- A listed byte reads as what is listed. -/
theorem Memory.byteAt_of_mem : ∀ {m : Memory} {c : Host.Cell}, m.wf → c ∈ m → m.byteAt c.1 = c.2
  | d :: m, c, h, hc => by
    rcases List.mem_cons.1 hc with rfl | hc
    · simp [Memory.byteAt]
    · have hlt := Memory.wf_from_tail h c hc
      have : d.1 ≠ c.1 := by omega
      simpa [Memory.byteAt, this] using Memory.byteAt_of_mem (Memory.wf_tail h) hc

/-- Two canonical memories that read the same are the same data. -/
theorem Memory.ext_byteAt : ∀ {m n : Memory}, m.wf → n.wf → (∀ k, m.byteAt k = n.byteAt k) → m = n
  | [], [], _, _, _ => rfl
  | [], d :: n, _, hn, h => by
    have := h d.1
    exact absurd (by simpa [Memory.byteAt] using this.symm) (hn.2 d (by simp))
  | c :: m, [], hm, _, h => by
    have := h c.1
    exact absurd (by simpa [Memory.byteAt] using this) (hm.2 c (by simp))
  | c :: m, d :: n, hm, hn, h => by
    have low : ∀ {a : Host.Cell} {p : Memory} {k : Nat}, Memory.wf (a :: p) → k < a.1 → Memory.byteAt (a :: p) k = 0 :=
      fun {a p k} hw hk => Memory.byteAt_eq_zero_of_not_mem fun x hx e => by
        rcases List.mem_cons.1 hx with rfl | hx
        · omega
        · have := Memory.wf_from_tail hw x hx
          omega
    have hc : Memory.byteAt (c :: m) c.1 = c.2 := Memory.byteAt_of_mem hm (by simp)
    have hd : Memory.byteAt (d :: n) d.1 = d.2 := Memory.byteAt_of_mem hn (by simp)
    have hk : c.1 = d.1 := by
      rcases Nat.lt_trichotomy c.1 d.1 with hlt | heq | hgt
      · exact absurd (by rw [← hc, h, low hn hlt]) (hm.2 c (by simp))
      · exact heq
      · exact absurd (by rw [← hd, ← h, low hm hgt]) (hn.2 d (by simp))
    have hv : c.2 = d.2 := by rw [← hc, h, hk, hd]
    have ht : m = n := by
      refine Memory.ext_byteAt (Memory.wf_tail hm) (Memory.wf_tail hn) fun k => ?_
      by_cases e : c.1 = k
      · have h1 : Memory.byteAt m k = 0 := Memory.byteAt_eq_zero_of_not_mem fun x hx e' => by
          have := Memory.wf_from_tail hm x hx
          omega
        have h2 : Memory.byteAt n k = 0 := Memory.byteAt_eq_zero_of_not_mem fun x hx e' => by
          have := Memory.wf_from_tail hn x hx
          omega
        rw [h1, h2]
      · have e' : ¬ d.1 = k := by omega
        simpa [Memory.byteAt, e, e'] using h k
    rw [ht, Prod.ext hk hv]

end Sys2Proof.Machine
end

