-- ==== Sys2Proof/Laws/Boot.lean ====
section
/-! SUPPORT. What a load, a restore and the moves of a session can do. -/

namespace Sys2Proof.Machine

/-- A load that is not refused: the image is whole and not too large, and the state is its fresh reset (R300). -/
theorem loadImage_cases {image : List Byte} {depth : Config.StackDepth} {plans : List HostAction} {t : State}
    (h : loadImage image depth plans = .ok t) :
    image.length % 2 = 0 ∧ image.length / 2 ≤ 32768 ∧
    t = { State.reset with
      mem := Memory.ofBytes 0 image
      memLimit := BitVec.ofNat 16 (image.length / 2)
      stackDepth := depth
      hostQueue := plans } := by
  unfold loadImage at h
  split at h
  · cases h
  · split at h
    · cases h
    · rename_i hodd hlarge
      exact ⟨by omega, Nat.le_of_not_lt hlarge, (Except.ok.inj h).symm⟩

/-- A restore that is not refused: a load that is not refused, and a snapshot that is well formed (R302). -/
theorem restoreImage_cases {image : List Byte} {snap : Snapshot} {depth : Config.StackDepth} {plans : List HostAction}
    {t : State} (h : restoreImage image snap depth plans = .ok t) :
    ∃ u regs stack pc, loadImage image depth plans = .ok u ∧ snapshotParts depth snap = some (regs, stack, pc) ∧
      t = { u with regs := regs, stack := stack.reverse, pc := pc } := by
  unfold restoreImage at h
  cases hl : loadImage image depth plans with
  | error e =>
    rw [hl] at h
    cases h
  | ok u =>
    cases hp : snapshotParts depth snap with
    | none =>
      rw [hl, hp] at h
      cases h
    | some p =>
      obtain ⟨regs, stack, pc⟩ := p
      rw [hl, hp] at h
      exact ⟨u, regs, stack, pc, rfl, rfl, (Except.ok.inj h).symm⟩

/-- The stack of a well-formed snapshot fits in STACK_DEPTH (R302). -/
theorem snapshotParts_fits {depth : Config.StackDepth} {snap : Snapshot} {regs : Vector Word 8} {stack : List Word}
    {pc : Word} (h : snapshotParts depth snap = some (regs, stack, pc)) : fitsDepth depth stack.length = true := by
  unfold snapshotParts at h
  simp only [Option.bind_eq_bind, Option.bind_eq_some_iff] at h
  obtain ⟨_, _, _, _, _, _, _, _, _, _, _, _, _, _, h⟩ := h
  split at h
  · cases h
    assumption
  · cases h

theorem map_loaded {r : Except LoadError State} {y : Session} (h : r.map Session.loaded = .ok y) :
    ∃ t, r = .ok t ∧ y = .loaded t := by
  cases r with
  | error e => cases h
  | ok t => exact ⟨t, rfl, (Except.ok.inj h).symm⟩

/-- The host's Load: a loaded session, from an image that is not refused (R281). -/
theorem Session.load_cases {x y : Session} {image : List Byte} (h : x.load image = .ok y) :
    ∃ depth plans t, loadImage image depth plans = .ok t ∧ y = .loaded t := by
  cases x with
  | empty depth plans => exact ⟨depth, plans, map_loaded h⟩
  | loaded s => exact ⟨s.stackDepth, s.hostQueue, map_loaded h⟩
  | run s =>
    simp only [Session.load] at h
    split at h
    · exact ⟨s.stackDepth, s.hostQueue, map_loaded h⟩
    · cases h

/-- The host's Restore: a loaded session, from an image and a snapshot that are not refused (R281). -/
theorem Session.restore_cases {x y : Session} {image : List Byte} {snap : Snapshot} (h : x.restore image snap = .ok y) :
    ∃ depth plans t, restoreImage image snap depth plans = .ok t ∧ y = .loaded t := by
  cases x with
  | empty depth plans => exact ⟨depth, plans, map_loaded h⟩
  | loaded s => exact ⟨s.stackDepth, s.hostQueue, map_loaded h⟩
  | run s => cases h

/-- A step of a session is a step of its block (R307). -/
theorem Session.step_cases {x y : Session} (h : x.step = some y) :
    ∃ s t, x.block = some s ∧ Machine.step s = .next t ∧ y = .run t := by
  unfold Session.step at h
  split at h
  · cases h
  · rename_i s hs
    split at h
    · rename_i t ht
      exact ⟨s, t, hs, ht, (Option.some.inj h).symm⟩
    · cases h
    · cases h

end Sys2Proof.Machine
end

