-- ==== Sys2Proof/Laws/Ops.lean ====
section
/-! SUPPORT. What each shared operation can do: memory accesses, registers, the stack, the commit, and reading operand
words. -/

namespace Sys2Proof.Machine

theorem memRead_of_lt {s : State} {a : Nat} (h : a < s.memLimit.toNat) : memRead s a = .ok (s.cell a) :=
  if_neg (by omega)

theorem memRead_of_le {s : State} {a : Nat} (h : s.memLimit.toNat ≤ a) : memRead s a = .error ⟨.memRange, a, 0⟩ :=
  if_pos h

/-- If MemRead answers a word, the address is below N and the word is the cell's. -/
theorem memRead_ok_iff {s : State} {a : Nat} {w : Word} :
    memRead s a = .ok w ↔ a < s.memLimit.toNat ∧ s.cell a = w := by
  unfold memRead
  split <;> simp <;> omega

theorem memWrite_of_lt {s : State} {a : Nat} (v : Word) (h : a < s.memLimit.toNat) :
    memWrite s a v = .ok (s.setCell a v) :=
  if_neg (by omega)

theorem memWrite_of_le {s : State} {a : Nat} (v : Word) (h : s.memLimit.toNat ≤ a) :
    memWrite s a v = .error ⟨.memRange, a, 0⟩ :=
  if_pos h

/-- The cell written holds the word; every other cell is as before. -/
theorem State.setCell_cell {s : State} (h : s.mem.wf) (a : Nat) (v : Word) (b : Nat) :
    (s.setCell a v).cell b = if a = b then v else s.cell b :=
  Memory.word_setWord h a v b

/-- Writing a register changes that register and no other. -/
theorem State.setReg_reg (s : State) (i : RegIx) (v : Word) (j : RegIx) :
    (s.setReg i v).reg j = if i = j then v else s.reg j := by
  simp only [State.reg, State.setReg_regs, Vector.getElem_set, BitVec.toNat_inj]

@[simp] theorem State.setReg_cell (s : State) (i : RegIx) (v : Word) (a : Nat) : (s.setReg i v).cell a = s.cell a := rfl
@[simp] theorem State.setPc_cell (s : State) (p : Word) (a : Nat) : (s.setPc p).cell a = s.cell a := rfl
@[simp] theorem State.setStack_cell (s : State) (st : List Word) (a : Nat) : (s.setStack st).cell a = s.cell a := rfl
@[simp] theorem State.setRunState_cell (s : State) (r : RunState) (a : Nat) : (s.setRunState r).cell a = s.cell a := rfl
@[simp] theorem State.emit_cell (s : State) (v : Word) (a : Nat) : (s.emit v).cell a = s.cell a := rfl
@[simp] theorem State.setQueue_cell (s : State) (q : List HostAction) (a : Nat) : (s.setQueue q).cell a = s.cell a := rfl
@[simp] theorem State.enterFault_cell (s : State) (f : FaultInfo) (a : Nat) : (s.enterFault f).cell a = s.cell a := rfl

@[simp] theorem State.setCell_reg (s : State) (a : Nat) (v : Word) (i : RegIx) : (s.setCell a v).reg i = s.reg i := rfl
@[simp] theorem State.setPc_reg (s : State) (p : Word) (i : RegIx) : (s.setPc p).reg i = s.reg i := rfl
@[simp] theorem State.setStack_reg (s : State) (st : List Word) (i : RegIx) : (s.setStack st).reg i = s.reg i := rfl
@[simp] theorem State.setRunState_reg (s : State) (r : RunState) (i : RegIx) : (s.setRunState r).reg i = s.reg i := rfl
@[simp] theorem State.emit_reg (s : State) (v : Word) (i : RegIx) : (s.emit v).reg i = s.reg i := rfl
@[simp] theorem State.setQueue_reg (s : State) (q : List HostAction) (i : RegIx) : (s.setQueue q).reg i = s.reg i := rfl
@[simp] theorem State.enterFault_reg (s : State) (f : FaultInfo) (i : RegIx) : (s.enterFault f).reg i = s.reg i := rfl

/-- Push: a full stack raises STACK_OVERFLOW, any other takes the value on top. -/
theorem push_cases {s t : State} {v : Word} (h : push s v = .ok t) : s.stackFull = false ∧ t = s.setStack (v :: s.stack) := by
  unfold push at h
  split at h
  · cases h
  · rename_i hf
    exact ⟨by simpa using hf, (Except.ok.inj h).symm⟩

theorem push_error {s : State} {v : Word} {f : FaultInfo} (h : push s v = .error f) :
    s.stackFull = true ∧ f = ⟨.stackOverflow, 0, 0⟩ := by
  unfold push at h
  split at h
  · rename_i hf
    exact ⟨hf, (Except.error.inj h).symm⟩
  · cases h

theorem stackFull_eq_true {s : State} : s.stackFull = true ↔ ∃ d, s.stackDepth = some d ∧ d.val ≤ s.stack.length := by
  unfold State.stackFull
  cases h : s.stackDepth <;> simp

theorem stackFull_eq_false {s : State} : s.stackFull = false ↔ ∀ d, s.stackDepth = some d → s.stack.length < d.val := by
  unfold State.stackFull
  cases h : s.stackDepth <;> simp

@[simp] theorem pop_of_nil {s : State} (h : s.stack = []) : pop s = none := by simp [pop, h]

theorem pop_of_cons {s : State} {v : Word} {st : List Word} (h : s.stack = v :: st) :
    pop s = some (v, s.setStack st) := by simp [pop, h]

/-- If Pop answers, the value was the top and the rest is the new stack. -/
theorem pop_cases {s t : State} {v : Word} (h : pop s = some (v, t)) :
    ∃ st, s.stack = v :: st ∧ t = s.setStack st := by
  unfold pop at h
  split at h
  · cases h
  · rename_i w st hs
    cases h
    exact ⟨st, hs, rfl⟩

@[simp] theorem commit_goOn (s t : State) (p : Word) : commit s (.ok (t, .goOn p)) = .next (t.setPc p) := rfl
@[simp] theorem commit_halt (s t : State) : commit s (.ok (t, .halt)) = .next (t.setRunState .halted) := rfl
@[simp] theorem commit_wait (s t : State) : commit s (.ok (t, .wait)) = .next (t.setRunState .waitIn) := rfl
@[simp] theorem commit_error (s : State) (f : FaultInfo) : commit s (.error f) = .next (s.enterFault f) := rfl

/-- The commit always answers a next state: a fault entered from the state before, or what the outcome says (R126). -/
theorem commit_cases {s t : State} {e : Effect} (h : commit s e = .next t) :
    (∃ f, e = .error f ∧ t = s.enterFault f) ∨
    (∃ u p, e = .ok (u, .goOn p) ∧ t = u.setPc p) ∨
    (∃ u, e = .ok (u, .halt) ∧ t = u.setRunState .halted) ∨
    (∃ u, e = .ok (u, .wait) ∧ t = u.setRunState .waitIn) := by
  match e with
  | .error f => exact .inl ⟨f, rfl, by simpa using h.symm⟩
  | .ok (u, .goOn p) => exact .inr (.inl ⟨u, p, rfl, by simpa using h.symm⟩)
  | .ok (u, .halt) => exact .inr (.inr (.inl ⟨u, rfl, by simpa using h.symm⟩))
  | .ok (u, .wait) => exact .inr (.inr (.inr ⟨u, rfl, by simpa using h.symm⟩))

theorem commit_is_next (s : State) (e : Effect) : ∃ t, commit s e = .next t := by
  match e with
  | .error f => exact ⟨_, rfl⟩
  | .ok (u, .goOn p) => exact ⟨_, rfl⟩
  | .ok (u, .halt) => exact ⟨_, rfl⟩
  | .ok (u, .wait) => exact ⟨_, rfl⟩

/-- Two steps of a check: either the first raises, or it answers and the second goes on from there. -/
theorem bind_ok_iff {α β : Type} {x : Except FaultInfo α} {g : α → Except FaultInfo β} {r : β} :
    (x >>= g) = .ok r ↔ ∃ a, x = .ok a ∧ g a = .ok r := by
  cases x <;> simp [bind, Except.bind]

theorem bind_error_iff {α β : Type} {x : Except FaultInfo α} {g : α → Except FaultInfo β} {f : FaultInfo} :
    (x >>= g) = .error f ↔ x = .error f ∨ ∃ a, x = .ok a ∧ g a = .error f := by
  cases x <;> simp [bind, Except.bind]

@[simp] theorem ok_bind {α β : Type} (a : α) (g : α → Except FaultInfo β) : ((.ok a : Except FaultInfo α) >>= g) = g a := rfl
@[simp] theorem error_bind {α β : Type} (f : FaultInfo) (g : α → Except FaultInfo β) :
    ((.error f : Except FaultInfo α) >>= g) = .error f := rfl

/-- If the operand words are read, they are the cells from `a` on, and all of them lie below N (R123). -/
theorem memReads_ok_iff {s : State} : ∀ {n a : Nat} {ws : List Word}, memReads s a n = .ok ws ↔
    ws.length = n ∧ ∀ k w, ws[k]? = some w → a + k < s.memLimit.toNat ∧ s.cell (a + k) = w
  | 0, a, ws => by
    constructor
    · intro h
      obtain rfl := Except.ok.inj h
      simp
    · rintro ⟨h, -⟩
      rw [List.length_eq_zero_iff.1 h]
      rfl
  | n + 1, a, ws => by
    unfold memReads
    simp only [bind_ok_iff, memRead_ok_iff, memReads_ok_iff (n := n)]
    constructor
    · rintro ⟨w, ⟨hlt, hc⟩, us, ⟨hl, hu⟩, he⟩
      obtain rfl := Except.ok.inj he
      refine ⟨by simp [hl], fun k x hk => ?_⟩
      cases k with
      | zero =>
        obtain rfl : w = x := by simpa using hk
        exact ⟨hlt, hc⟩
      | succ k =>
        have := hu k x (by simpa using hk)
        rwa [Nat.add_assoc, Nat.add_comm 1 k] at this
    · rintro ⟨hl, hw⟩
      match ws, hl with
      | w :: us, hl =>
        have h0 := hw 0 w (by simp)
        refine ⟨w, by simpa using h0, us, ⟨by simpa using hl, fun k x hk => ?_⟩, rfl⟩
        have := hw (k + 1) x (by simpa using hk)
        rwa [Nat.add_assoc, Nat.add_comm 1 k]

/-- Operand words that cannot all be read raise MEM_RANGE at the lowest address at or above N (R123, R129). -/
theorem memReads_error_iff {s : State} : ∀ {n a : Nat} {f : FaultInfo}, memReads s a n = .error f ↔
    ∃ k, k < n ∧ s.memLimit.toNat ≤ a + k ∧ (∀ j, j < k → a + j < s.memLimit.toNat) ∧ f = ⟨.memRange, a + k, 0⟩
  | 0, a, f => by simp [memReads]
  | n + 1, a, f => by
    unfold memReads
    by_cases ha : a < s.memLimit.toNat
    · rw [memRead_of_lt ha]
      simp only [ok_bind, bind_error_iff, memReads_error_iff (n := n)]
      constructor
      · rintro (⟨k, hk, hle, hj, rfl⟩ | ⟨us, -, h⟩)
        · refine ⟨k + 1, by omega, by omega, fun j hj' => ?_, by simp; omega⟩
          cases j with
          | zero => simpa using ha
          | succ j =>
            have := hj j (by omega)
            omega
        · cases h
      · rintro ⟨k, hk, hle, hj, rfl⟩
        cases k with
        | zero => omega
        | succ k =>
          refine .inl ⟨k, by omega, by omega, fun j hj' => ?_, by simp; omega⟩
          have := hj (j + 1) (by omega)
          omega
    · rw [memRead_of_le (by omega)]
      simp only [error_bind]
      constructor
      · intro h
        refine ⟨0, by omega, by omega, by omega, ?_⟩
        simpa using (Except.error.inj h).symm
      · rintro ⟨k, hk, hle, hj, rfl⟩
        cases k with
        | zero => rfl
        | succ k =>
          have := hj 0 (by omega)
          omega

end Sys2Proof.Machine
end

