-- ==== Sys2Proof/Laws/Decode.lean ====
section
/-! SUPPORT. The opcode map seen from both sides, and what a fetch can do. -/

namespace Sys2Proof

/-- An opcode word has no arity exactly when it is above 21 (R101). -/
theorem arityOf_eq_none {op : Word} (h : 21 < op.toNat) : arityOf op = none := by
  unfold arityOf
  split <;> first | rfl | omega

/-- An opcode word above 21 is rejected by name, whatever follows it (R101). -/
theorem decodeOp_of_gt {op : Word} (h : 21 < op.toNat) (ws : List Word) :
    decodeOp op ws = .error (.invalidOpcode op) := by
  unfold decodeOp
  split <;> first | rfl | omega

theorem operand1_cases {f : Word → Instr} {ws rest : List Word} {i : Instr} (h : operand1 f ws = .ok (i, rest)) :
    ∃ a, ws = a :: rest ∧ i = f a := by
  unfold operand1 at h
  split at h <;> cases h
  exact ⟨_, rfl, rfl⟩

theorem operand2_cases {f : Word → Word → Instr} {ws rest : List Word} {i : Instr} (h : operand2 f ws = .ok (i, rest)) :
    ∃ a b, ws = a :: b :: rest ∧ i = f a b := by
  unfold operand2 at h
  split at h <;> cases h
  exact ⟨_, _, rfl, rfl⟩

theorem operand3_cases {f : Word → Word → Word → Instr} {ws rest : List Word} {i : Instr}
    (h : operand3 f ws = .ok (i, rest)) : ∃ a b c, ws = a :: b :: c :: rest ∧ i = f a b c := by
  unfold operand3 at h
  split at h <;> cases h
  exact ⟨_, _, _, rfl, rfl⟩

/-- An opcode word with an arity, and that many operand words, decode to an instruction that has these words. -/
theorem decodeOp_of_arity {op : Word} {n : Nat} {ws : List Word} (h : arityOf op = some n) (hl : ws.length = n) :
    ∃ i, decodeOp op ws = .ok (i, []) ∧ encode i = op :: ws := by
  unfold arityOf at h
  split at h <;> rename_i hop <;> cases h
  all_goals
    first
    | (obtain rfl := List.length_eq_zero_iff.1 hl)
    | (obtain ⟨a, rfl⟩ := List.length_eq_one_iff.1 hl)
    | (obtain ⟨a, b, rfl⟩ := List.length_eq_two.1 hl)
    | (obtain ⟨a, b, c, rfl⟩ := List.length_eq_three.1 hl)
    simp only [decodeOp, hop, operand1, operand2, operand3]
    refine ⟨_, rfl, ?_⟩
    simp only [encode, Instr.opcode, Instr.operands, List.cons.injEq, and_true]
    exact BitVec.eq_of_toNat_eq (by simp [hop])

end Sys2Proof

namespace Sys2Proof.Machine

/-- If a fetch answers an instruction, its words stand in memory from pc on, all of them below N (R121 to R123). -/
theorem fetchInstr_ok {s : State} {i : Instr} (h : fetchInstr s = .ok i) :
    ∀ k w, (encode i)[k]? = some w → s.slot k < s.memLimit.toNat ∧ s.cell (s.slot k) = w := by
  unfold fetchInstr at h
  obtain ⟨op, hop, h⟩ := bind_ok_iff.1 h
  obtain ⟨hpc, hcell⟩ := memRead_ok_iff.1 hop
  cases ha : arityOf op with
  | none => simp [ha] at h
  | some n =>
    simp only [ha] at h
    obtain ⟨ws, hws, h⟩ := bind_ok_iff.1 h
    obtain ⟨hl, hw⟩ := memReads_ok_iff.1 hws
    obtain ⟨j, hj, he⟩ := decodeOp_of_arity ha hl
    simp only [decode, hj] at h
    obtain rfl := Except.ok.inj h
    intro k w hk
    rw [he] at hk
    cases k with
    | zero =>
      obtain rfl : op = w := by simpa using hk
      exact ⟨hpc, hcell⟩
    | succ k =>
      have := hw k w (by simpa using hk)
      simpa only [State.slot, Nat.add_assoc, Nat.add_comm 1 k] using this

/-- A fetch at or above N raises MEM_RANGE at pc (R121). -/
theorem fetchInstr_outside {s : State} (h : s.memLimit.toNat ≤ s.pc.toNat) :
    fetchInstr s = .error ⟨.memRange, s.pc.toNat, 0⟩ := by
  simp [fetchInstr, memRead_of_le h]

/-- The faults of a fetch, in their order: the opcode word outside memory, no opcode, an operand word outside memory
(R129, items 1 to 3). -/
theorem fetchInstr_error {s : State} {f : FaultInfo} (h : fetchInstr s = .error f) :
    (s.memLimit.toNat ≤ s.pc.toNat ∧ f = ⟨.memRange, s.pc.toNat, 0⟩) ∨
    (s.pc.toNat < s.memLimit.toNat ∧ arityOf (s.cell s.pc.toNat) = none ∧
      f = ⟨.invalidOpcode, s.pc.toNat, s.cell s.pc.toNat⟩) ∨
    (s.pc.toNat < s.memLimit.toNat ∧ ∃ n k, arityOf (s.cell s.pc.toNat) = some n ∧ k < n ∧
      s.memLimit.toNat ≤ s.slot 1 + k ∧ (∀ j, j < k → s.slot 1 + j < s.memLimit.toNat) ∧
      f = ⟨.memRange, s.slot 1 + k, 0⟩) := by
  by_cases hpc : s.pc.toNat < s.memLimit.toNat
  · unfold fetchInstr at h
    rw [memRead_of_lt hpc, ok_bind] at h
    cases ha : arityOf (s.cell s.pc.toNat) with
    | none =>
      simp only [ha] at h
      exact .inr (.inl ⟨hpc, rfl, (Except.error.inj h).symm⟩)
    | some n =>
      simp only [ha, bind_error_iff, memReads_error_iff] at h
      rcases h with ⟨k, hk⟩ | ⟨ws, hws, h⟩
      · exact .inr (.inr ⟨hpc, n, k, rfl, hk⟩)
      · obtain ⟨i, hi, -⟩ := decodeOp_of_arity ha (memReads_ok_iff.1 hws).1
        simp [decode, hi] at h
  · exact .inl ⟨by omega, by rw [fetchInstr_outside (by omega)] at h; exact (Except.error.inj h).symm⟩

end Sys2Proof.Machine
end

