-- ==== Sys2Proof/Laws/Operands.lean ====
section
/-! SUPPORT. What the operand forms can do: classification by value ranges, the resolver, and WriteThrough. -/

namespace Sys2Proof.Machine

theorem classify_literal {w : Word} (h : w.toNat < 32768) : classify w = .literal := by
  have h15 : w.extractLsb' 15 1 = 0 := by
    apply BitVec.eq_of_toNat_eq
    simp only [BitVec.extractLsb'_toNat, BitVec.ofNat_eq_ofNat, BitVec.toNat_ofNat, Nat.shiftRight_eq_div_pow]
    omega
  simp only [classify, if_pos h15]

theorem classify_register {w : Word} {i : RegIx} (h : w.toNat = 32768 + i.toNat) : classify w = .register i := by
  have hi := i.isLt
  have h15 : ¬ w.extractLsb' 15 1 = 0 := fun e => by
    have := congrArg BitVec.toNat e
    simp only [BitVec.extractLsb'_toNat, BitVec.ofNat_eq_ofNat, BitVec.toNat_ofNat, Nat.shiftRight_eq_div_pow] at this
    omega
  have h3 : w.extractLsb' 3 12 = 0 := by
    apply BitVec.eq_of_toNat_eq
    simp only [BitVec.extractLsb'_toNat, BitVec.ofNat_eq_ofNat, BitVec.toNat_ofNat, Nat.shiftRight_eq_div_pow]
    omega
  have ht : tagIndex w = i := by
    apply BitVec.eq_of_toNat_eq
    simp only [tagIndex, BitVec.extractLsb'_toNat, Nat.shiftRight_eq_div_pow]
    omega
  simp only [classify, if_neg h15, if_pos h3, ht]

theorem classify_invalid {w : Word} (h : 32775 < w.toNat) : classify w = .invalid := by
  have hw := w.isLt
  have h15 : ¬ w.extractLsb' 15 1 = 0 := fun e => by
    have := congrArg BitVec.toNat e
    simp only [BitVec.extractLsb'_toNat, BitVec.ofNat_eq_ofNat, BitVec.toNat_ofNat, Nat.shiftRight_eq_div_pow] at this
    omega
  have h3 : ¬ w.extractLsb' 3 12 = 0 := fun e => by
    have := congrArg BitVec.toNat e
    simp only [BitVec.extractLsb'_toNat, BitVec.ofNat_eq_ofNat, BitVec.toNat_ofNat, Nat.shiftRight_eq_div_pow] at this
    omega
  simp only [classify, if_neg h15, if_neg h3]

/-- Every word has one of the three forms, by its value (R97). -/
theorem classify_cases (w : Word) :
    (w.toNat < 32768 ∧ classify w = .literal) ∨
    (∃ i : RegIx, w.toNat = 32768 + i.toNat ∧ classify w = .register i) ∨
    (32775 < w.toNat ∧ classify w = .invalid) := by
  by_cases h1 : w.toNat < 32768
  · exact .inl ⟨h1, classify_literal h1⟩
  · by_cases h2 : w.toNat ≤ 32775
    · have : w.toNat = 32768 + (BitVec.ofNat 3 (w.toNat - 32768)).toNat := by
        simp only [BitVec.toNat_ofNat]
        omega
      exact .inr (.inl ⟨_, this, classify_register this⟩)
    · exact .inr (.inr ⟨by omega, classify_invalid (by omega)⟩)

/-- If Resolve answers, the word is a literal and is its own value, or it is a tag and the value is its register's. -/
theorem resolve_ok_cases {s : State} {w v : Word} {addr : Nat} (h : resolve s w addr = .ok v) :
    (w.toNat < 32768 ∧ v = w) ∨ ∃ i : RegIx, w.toNat = 32768 + i.toNat ∧ v = s.reg i := by
  rcases classify_cases w with ⟨hw, hc⟩ | ⟨i, hw, hc⟩ | ⟨hw, hc⟩ <;> simp only [resolve, hc] at h
  · exact .inl ⟨hw, (Except.ok.inj h).symm⟩
  · exact .inr ⟨i, hw, (Except.ok.inj h).symm⟩
  · cases h

/-- Resolve raises INVALID_OPERAND exactly on a word above 32775, recording where it stood. -/
theorem resolve_error_iff {s : State} {w : Word} {addr : Nat} {f : FaultInfo} :
    resolve s w addr = .error f ↔ 32775 < w.toNat ∧ f = ⟨.invalidOperand, addr, w⟩ := by
  rcases classify_cases w with ⟨hw, hc⟩ | ⟨i, hw, hc⟩ | ⟨hw, hc⟩ <;> simp only [resolve, hc]
  · simp; omega
  · have := i.isLt
    simp; omega
  · simp [hw, eq_comm]

/-- WriteThrough faults for its slot alone (R65). -/
theorem writeThrough_error_iff {s : State} {v : Word} {slot : Nat} {f : FaultInfo} :
    writeThrough s v slot = .error f ↔ s.memLimit.toNat ≤ slot ∧ f = ⟨.memRange, slot, 0⟩ := by
  unfold writeThrough
  by_cases h : slot < s.memLimit.toNat
  · rw [memRead_of_lt h, ok_bind, memWrite_of_lt v h]
    rcases classify_cases (s.cell slot) with ⟨-, hc⟩ | ⟨i, -, hc⟩ | ⟨-, hc⟩ <;> simp [hc] <;> omega
  · rw [memRead_of_le (by omega), error_bind]
    simp [eq_comm]; omega

/-- If WriteThrough answers, its slot is in memory, and it wrote the register the descriptor names, or the slot's own cell
when the descriptor is no tag (R64). -/
theorem writeThrough_cases {s t : State} {v : Word} {slot : Nat} (h : writeThrough s v slot = .ok t) :
    slot < s.memLimit.toNat ∧
    ((∃ i : RegIx, (s.cell slot).toNat = 32768 + i.toNat ∧ t = s.setReg i v) ∨
     (((s.cell slot).toNat < 32768 ∨ 32775 < (s.cell slot).toNat) ∧ t = s.setCell slot v)) := by
  unfold writeThrough at h
  simp only [bind_ok_iff, memRead_ok_iff] at h
  obtain ⟨d, ⟨hlt, rfl⟩, h⟩ := h
  refine ⟨hlt, ?_⟩
  rcases classify_cases (s.cell slot) with ⟨hd, hc⟩ | ⟨i, hd, hc⟩ | ⟨hd, hc⟩ <;> simp only [hc] at h
  · rw [memWrite_of_lt v hlt] at h
    exact .inr ⟨.inl hd, (Except.ok.inj h).symm⟩
  · exact .inl ⟨i, hd, (Except.ok.inj h).symm⟩
  · rw [memWrite_of_lt v hlt] at h
    exact .inr ⟨.inr hd, (Except.ok.inj h).symm⟩

/-- WriteThrough answers whenever its slot is in memory. -/
theorem writeThrough_ok_of_lt {s : State} (v : Word) {slot : Nat} (h : slot < s.memLimit.toNat) :
    ∃ t, writeThrough s v slot = .ok t := by
  cases hw : writeThrough s v slot with
  | ok t => exact ⟨t, rfl⟩
  | error f => exact absurd (writeThrough_error_iff.1 hw).1 (by omega)

end Sys2Proof.Machine
end

