-- ==== Sys2Proof/Laws/Exec.lean ====
section
/-! SUPPORT. What the shared shapes of the meanings can do, and what one step can do. -/

namespace Sys2Proof.Machine

/-- What a three-operand instruction can do: fault on b, on c or by itself, on the write, or write `r` and go on at pc+4. -/
theorem binaryOp_cases {f : Word → Word → Except FaultInfo Word} {b c : Src} {s t : State}
    (h : binaryOp f b c s = .next t) :
    (∃ e, t = s.enterFault e ∧
      (resolve s b (s.slot 2) = .error e ∨ resolve s c (s.slot 3) = .error e ∨
        (∃ vb vc, f vb vc = .error e) ∨ ∃ r, writeThrough s r (s.slot 1) = .error e)) ∨
    (∃ vb vc r u, resolve s b (s.slot 2) = .ok vb ∧ resolve s c (s.slot 3) = .ok vc ∧ f vb vc = .ok r ∧
      writeThrough s r (s.slot 1) = .ok u ∧ t = u.setPc (s.pc + 4)) := by
  unfold binaryOp at h
  cases hb : resolve s b (s.slot 2) with
  | error e =>
    simp only [hb, error_bind, commit_error, Host.Outcome.next.injEq] at h
    exact .inl ⟨e, h.symm, .inl rfl⟩
  | ok vb =>
  cases hc : resolve s c (s.slot 3) with
  | error e =>
    simp only [hb, hc, ok_bind, error_bind, commit_error, Host.Outcome.next.injEq] at h
    exact .inl ⟨e, h.symm, .inr (.inl rfl)⟩
  | ok vc =>
  cases hf : f vb vc with
  | error e =>
    simp only [hb, hc, hf, ok_bind, error_bind, commit_error, Host.Outcome.next.injEq] at h
    exact .inl ⟨e, h.symm, .inr (.inr (.inl ⟨vb, vc, hf⟩))⟩
  | ok r =>
  cases hw : writeThrough s r (s.slot 1) with
  | error e =>
    simp only [hb, hc, hf, hw, ok_bind, error_bind, commit_error, Host.Outcome.next.injEq] at h
    exact .inl ⟨e, h.symm, .inr (.inr (.inr ⟨r, hw⟩))⟩
  | ok u =>
    simp only [hb, hc, hf, hw, ok_bind, pure, Except.pure, commit_goOn, Host.Outcome.next.injEq] at h
    exact .inr ⟨vb, vc, r, u, rfl, rfl, hf, hw, h.symm⟩

/-- What a conditional jump can do: fault on a or on b, or move pc and nothing else. -/
theorem branchOn_cases {taken : Word → Bool} {a b : Src} {s t : State} (h : branchOn taken a b s = .next t) :
    (∃ e, t = s.enterFault e ∧ (resolve s a (s.slot 1) = .error e ∨ resolve s b (s.slot 2) = .error e)) ∨
    (∃ c p, resolve s a (s.slot 1) = .ok c ∧ resolve s b (s.slot 2) = .ok p ∧
      t = s.setPc (if taken c then p else s.pc + 3)) := by
  unfold branchOn at h
  cases ha : resolve s a (s.slot 1) with
  | error e =>
    simp only [ha, error_bind, commit_error, Host.Outcome.next.injEq] at h
    exact .inl ⟨e, h.symm, .inl rfl⟩
  | ok c =>
  cases hb : resolve s b (s.slot 2) with
  | error e =>
    simp only [ha, hb, ok_bind, error_bind, commit_error, Host.Outcome.next.injEq] at h
    exact .inl ⟨e, h.symm, .inr rfl⟩
  | ok p =>
    simp only [ha, hb, ok_bind, pure, Except.pure, commit_goOn, Host.Outcome.next.injEq] at h
    exact .inr ⟨c, p, rfl, rfl, h.symm⟩

/-- The faults of its own an instruction can raise (R129 items 4 and 5), with what each records (R260). -/
def FaultOf (i : Instr) (s : State) (f : FaultInfo) : Prop :=
  (∃ w ∈ i.sources, ∃ k, 1 ≤ k ∧ k ≤ i.operands.length ∧ 32775 < w.toNat ∧ f = ⟨.invalidOperand, s.slot k, w⟩) ∨
  (∃ a, (∃ x y, i = .rmem x y ∨ i = .wmem x y) ∧ s.memLimit.toNat ≤ a ∧ a < 65536 ∧ f = ⟨.memRange, a, 0⟩) ∨
  (∃ a x y, i = .rmem x y ∧ a < s.memLimit.toNat ∧ 32775 < (s.cell a).toNat ∧ f = ⟨.invalidOperand, a, s.cell a⟩) ∨
  (s.memLimit.toNat ≤ s.slot 1 ∧ f = ⟨.memRange, s.slot 1, 0⟩) ∨
  (∃ x, i = .pop x ∧ f = ⟨.stackEmpty, 0, 0⟩) ∨
  (∃ x y z, i = .mod x y z ∧ f = ⟨.divZero, 0, 0⟩) ∨
  (∃ x, (i = .push x ∨ i = .call x) ∧ f = ⟨.stackOverflow, 0, 0⟩)

/-- The address an instruction writes through: its slot pc+1, or the value of WMEM's first operand (R64). -/
def WritesAt (i : Instr) (s : State) (a : Nat) : Prop :=
  match i with
  | .set .. | .pop .. | .eq .. | .gt .. | .add .. | .mult .. | .mod .. | .and .. | .or .. | .not .. | .rmem .. =>
    a = s.slot 1
  | .wmem x _ => ∃ addr, resolve s x (s.slot 1) = .ok addr ∧ a = addr.toNat
  | .halt | .push .. | .jmp .. | .jt .. | .jf .. | .call .. | .ret | .out .. | .inp .. | .noop => False

/-- What an instruction that writes a register or a cell did: one write of `v` through one address, from the state before
(for POP, with the top entry gone), then the move of pc. The last clause bounds `v` when registers and stack are bounded. -/
def Wrote (i : Instr) (s t : State) : Prop :=
  ∃ u v a w p, (u = s ∨ ∃ x st, i = .pop x ∧ s.stack = v :: st ∧ u = s.setStack st) ∧ WritesAt i s a ∧
    writeThrough u v a = .ok w ∧ t = w.setPc p ∧
    ((∀ r, (s.reg r).toNat ≤ 32767) → (∀ x ∈ s.stack, x.toNat ≤ 32767) → v.toNat ≤ 32767)

/-- Everything an instruction can do. -/
def ExecCases (i : Instr) (s t : State) : Prop :=
  (∃ f, t = s.enterFault f ∧ FaultOf i s f) ∨ Wrote i s t ∨
  (∃ p, t = s.setPc p ∧ ∀ a, ¬ WritesAt i s a) ∨
  (∃ x v p, (i = .push x ∨ i = .call x) ∧ s.stackFull = false ∧ t = (s.setStack (v :: s.stack)).setPc p ∧
    ((∀ r, (s.reg r).toNat ≤ 32767) → s.pc.toNat ≤ 32766 → v.toNat ≤ 32768)) ∨
  (∃ v st, i = .ret ∧ s.stack = v :: st ∧ t = (s.setStack st).setPc v) ∨
  (∃ x v p, i = .out x ∧ t = (s.emit v).setPc p) ∨
  (i = .halt ∧ t = s.setRunState .halted) ∨
  (i = .ret ∧ s.stack = [] ∧ t = s.setRunState .halted) ∨
  (∃ x, i = .inp x ∧ t = s.setRunState .waitIn)

/-- A resolved value is bounded when the registers are. -/
theorem resolve_le {s w v a} (h : resolve s w a = .ok v) (hr : ∀ r, (s.reg r).toNat ≤ 32767) : v.toNat ≤ 32767 := by
  rcases resolve_ok_cases h with ⟨h, rfl⟩ | ⟨i, -, rfl⟩
  · omega
  · exact hr i

/-- An illegal source operand among two is one of the instruction's own faults. -/
theorem faultOf_resolve_two {i : Instr} {b c : Word} {s f} {k l} (hs : i.sources = [b, c])
    (hk : 1 ≤ k ∧ k ≤ i.operands.length)
    (hl : 1 ≤ l ∧ l ≤ i.operands.length)
    (h : resolve s b (s.slot k) = .error f ∨ resolve s c (s.slot l) = .error f) : FaultOf i s f := by
  rcases h with h | h
  · obtain ⟨h1, h2⟩ := resolve_error_iff.1 h
    exact .inl ⟨b, by simp [hs], k, hk.1, hk.2, h1, h2⟩
  · obtain ⟨h1, h2⟩ := resolve_error_iff.1 h
    exact .inl ⟨c, by simp [hs], l, hl.1, hl.2, h1, h2⟩

/-- The cases of a three-operand instruction, from those of binaryOp. -/
theorem binaryOp_execCases {i : Instr} {b c : Word} {g : Word → Word → Except FaultInfo Word} {s t}
   (he : exec i s = binaryOp g b c s) (hs : i.sources = [b, c]) (ho : i.operands.length = 3) (hw : WritesAt i s (s.slot 1))
   (hg : ∀ x y e, g x y = .error e → ∃ x y z, i = .mod x y z ∧ e = ⟨.divZero, 0, 0⟩)
   (hv : ∀ x y r, x.toNat ≤ 32767 → y.toNat ≤ 32767 → g x y = .ok r → r.toNat ≤ 32767)
   (h : exec i s = .next t) : ExecCases i s t := by
  rw [he] at h
  rcases binaryOp_cases h with ⟨e, rfl, h | h | ⟨vb, vc, h⟩ | ⟨r, h⟩⟩ | ⟨vb, vc, r, u, h1, h2, h3, h4, rfl⟩
  · exact .inl ⟨e, rfl, faultOf_resolve_two (k := 2) (l := 3) hs (by omega) (by omega) (.inl h)⟩
  · exact .inl ⟨e, rfl, faultOf_resolve_two (k := 2) (l := 3) hs (by omega) (by omega) (.inr h)⟩
  · exact .inl ⟨e, rfl, .inr (.inr (.inr (.inr (.inr (.inl (hg _ _ _ h))))))⟩
  · exact .inl ⟨e, rfl, .inr (.inr (.inr (.inl (writeThrough_error_iff.1 h))))⟩
  · exact .inr (.inl ⟨s, r, _, u, _, .inl rfl, hw, h4, rfl, fun hr _ => hv _ _ _ (resolve_le h1 hr) (resolve_le h2 hr) h3⟩)

/-- The cases of a conditional jump, from those of branchOn. -/
theorem branchOn_execCases {i : Instr} {a b : Word} {g : Word → Bool} {s t}
   (he : exec i s = branchOn g a b s) (hs : i.sources = [a, b]) (ho : i.operands.length = 2) (hw : ∀ a, ¬ WritesAt i s a)
   (h : exec i s = .next t) : ExecCases i s t := by
  rw [he] at h
  rcases branchOn_cases h with ⟨e, rfl, h1⟩ | ⟨c, p, -, -, rfl⟩
  · exact .inl ⟨e, rfl, faultOf_resolve_two (k := 1) (l := 2) hs (by omega) (by omega) h1⟩
  · exact .inr (.inr (.inl ⟨_, rfl, hw⟩))

/-- An illegal source operand is one of the instruction's own faults. -/
theorem faultOf_resolve {i : Instr} {b : Word} {s f} (k) (h : resolve s b (s.slot k) = .error f) (hs : b ∈ i.sources)
    (hk : 1 ≤ k ∧ k ≤ i.operands.length) : FaultOf i s f := by
    obtain ⟨h1, h2⟩ := resolve_error_iff.1 h
    exact .inl ⟨b, by simp [hs], k, hk.1, hk.2, h1, h2⟩

theorem execHalt_cases {s t : State} (h : exec .halt s = .next t) : ExecCases .halt s t := by
  cases h; simp [ExecCases]

theorem execNoop_cases {s t : State} (h : exec .noop s = .next t) : ExecCases .noop s t := by
  cases h; exact .inr (.inr (.inl ⟨_, rfl, fun _ h => h⟩))

theorem execIn_cases {a : Word} {s t : State} (h : exec (.inp a) s = .next t) : ExecCases (.inp a) s t := by
  cases h; exact .inr (.inr (.inr (.inr (.inr (.inr (.inr (.inr ⟨a, rfl, rfl⟩)))))))

theorem execRet_cases {s t : State} (h : exec .ret s = .next t) : ExecCases .ret s t := by
  simp only [exec, execRet] at h
  cases hs : s.stack with
  | nil => rw [pop_of_nil hs] at h; cases h; simp [ExecCases, hs]
  | cons v st => rw [pop_of_cons hs] at h; cases h; exact .inr (.inr (.inr (.inr (.inl ⟨v, st, rfl, hs, rfl⟩))))

theorem execAdd_cases {a b c : Word} {s t : State} (h : exec (.add a b c) s = .next t) : ExecCases (.add a b c) s t := by
  exact binaryOp_execCases (b := b) (c := c) rfl rfl rfl rfl (by intro _ _ _ h; cases h) (by intro x y r _ _ h; cases h; simp [aluAdd, Config.modulus]; omega) h

theorem execMult_cases {a b c : Word} {s t : State} (h : exec (.mult a b c) s = .next t) : ExecCases (.mult a b c) s t := by
  exact binaryOp_execCases (b := b) (c := c) rfl rfl rfl rfl (by intro _ _ _ h; cases h) (by intro x y r _ _ h; cases h; simp [aluMult, Config.modulus]; omega) h

theorem execMod_cases {a b c : Word} {s t : State} (h : exec (.mod a b c) s = .next t) : ExecCases (.mod a b c) s t := by
  refine binaryOp_execCases (b := b) (c := c) rfl rfl rfl rfl ?_ ?_ h
  · intro x y e h; unfold aluMod at h; split at h <;> cases h; exact ⟨_, _, _, rfl, rfl⟩
  · intro x y r h1 h2 h; unfold aluMod at h; split at h <;> cases h
    have := Nat.mod_le x.toNat y.toNat
    simp; omega

theorem execAnd_cases {a b c : Word} {s t : State} (h : exec (.and a b c) s = .next t) : ExecCases (.and a b c) s t := by
  exact binaryOp_execCases (b := b) (c := c) rfl rfl rfl rfl (by intro _ _ _ h; cases h) (by intro x y r _ _ h; cases h; have := @Nat.and_le_left x.toNat y.toNat; simp; omega) h

theorem execOr_cases {a b c : Word} {s t : State} (h : exec (.or a b c) s = .next t) : ExecCases (.or a b c) s t := by
  exact binaryOp_execCases (b := b) (c := c) rfl rfl rfl rfl (by intro _ _ _ h; cases h) (by intro x y r _ _ h; cases h; have := @Nat.or_lt_two_pow x.toNat y.toNat 15 (by omega) (by omega); simp; omega) h

theorem execEq_cases {a b c : Word} {s t : State} (h : exec (.eq a b c) s = .next t) : ExecCases (.eq a b c) s t := by
  exact binaryOp_execCases (b := b) (c := c) rfl rfl rfl rfl (by intro _ _ _ h; cases h) (by intro x y r _ _ h; cases h; simp [truthWord]; split <;> simp) h

theorem execGt_cases {a b c : Word} {s t : State} (h : exec (.gt a b c) s = .next t) : ExecCases (.gt a b c) s t := by
  exact binaryOp_execCases (b := b) (c := c) rfl rfl rfl rfl (by intro _ _ _ h; cases h) (by intro x y r _ _ h; cases h; simp [truthWord]; split <;> simp) h

theorem execJt_cases {a b : Word} {s t : State} (h : exec (.jt a b) s = .next t) : ExecCases (.jt a b) s t := by
  exact branchOn_execCases (a := a) (b := b) rfl rfl rfl (fun _ h => h) h

theorem execJf_cases {a b : Word} {s t : State} (h : exec (.jf a b) s = .next t) : ExecCases (.jf a b) s t := by
  exact branchOn_execCases (a := a) (b := b) rfl rfl rfl (fun _ h => h) h

theorem execJmp_cases {a : Word} {s t : State} (h : exec (.jmp a) s = .next t) : ExecCases (.jmp a) s t := by
  simp only [exec, execJmp] at h
  cases h1 : resolve s a (s.slot 1) with
  | error e => rw [h1] at h; cases h; exact .inl ⟨e, rfl, faultOf_resolve _ h1 (by simp [Instr.sources]) (by simp [Instr.operands])⟩
  | ok v => rw [h1] at h; cases h; exact .inr (.inr (.inl ⟨_, rfl, fun _ h => h⟩))

theorem execOut_cases {a : Word} {s t : State} (h : exec (.out a) s = .next t) : ExecCases (.out a) s t := by
  simp only [exec, execOut] at h
  cases h1 : resolve s a (s.slot 1) with
  | error e => rw [h1] at h; cases h; exact .inl ⟨e, rfl, faultOf_resolve _ h1 (by simp [Instr.sources]) (by simp [Instr.operands])⟩
  | ok v => rw [h1] at h; cases h; exact .inr (.inr (.inr (.inr (.inr (.inl ⟨_, _, _, rfl, rfl⟩)))))

theorem execPush_cases {a : Word} {s t : State} (h : exec (.push a) s = .next t) : ExecCases (.push a) s t := by
  simp only [exec, execPush] at h
  cases h1 : resolve s a (s.slot 1) with
  | error e => rw [h1] at h; cases h; exact .inl ⟨e, rfl, faultOf_resolve _ h1 (by simp [Instr.sources]) (by simp [Instr.operands])⟩
  | ok v =>
    rw [h1, ok_bind] at h
    cases h2 : push s v with
    | error e => rw [h2] at h; cases h; exact .inl ⟨e, rfl, .inr (.inr (.inr (.inr (.inr (.inr ⟨a, .inl rfl, (push_error h2).2⟩)))))⟩
    | ok u =>
      obtain ⟨h3, rfl⟩ := push_cases h2
      rw [h2] at h; cases h
      exact .inr (.inr (.inr (.inl ⟨a, v, _, .inl rfl, h3, rfl, fun hr _ => by have := resolve_le h1 hr; omega⟩)))

theorem execCall_cases {a : Word} {s t : State} (h : exec (.call a) s = .next t) : ExecCases (.call a) s t := by
  simp only [exec, execCall] at h
  cases h1 : resolve s a (s.slot 1) with
  | error e => rw [h1] at h; cases h; exact .inl ⟨e, rfl, faultOf_resolve _ h1 (by simp [Instr.sources]) (by simp [Instr.operands])⟩
  | ok v =>
    rw [h1, ok_bind] at h
    cases h2 : push s (s.pc + 2) with
    | error e => rw [h2] at h; cases h; exact .inl ⟨e, rfl, .inr (.inr (.inr (.inr (.inr (.inr ⟨a, .inr rfl, (push_error h2).2⟩)))))⟩
    | ok u =>
      obtain ⟨h3, rfl⟩ := push_cases h2
      rw [h2] at h; cases h
      exact .inr (.inr (.inr (.inl ⟨a, _, _, .inr rfl, h3, rfl, fun hr _ => by simp [BitVec.toNat_add]; omega⟩)))

theorem execPop_cases {a : Word} {s t : State} (h : exec (.pop a) s = .next t) : ExecCases (.pop a) s t := by
  simp only [exec, execPop] at h
  cases hs : s.stack with
  | nil => rw [pop_of_nil hs] at h; cases h; exact .inl ⟨_, rfl, .inr (.inr (.inr (.inr (.inl ⟨a, rfl, rfl⟩))))⟩
  | cons v st =>
    rw [pop_of_cons hs] at h
    cases h4 : writeThrough (s.setStack st) v (s.slot 1) with
    | error e => simp only [h4] at h; cases h; exact .inl ⟨e, rfl, .inr (.inr (.inr (.inl (by simpa using writeThrough_error_iff.1 h4))))⟩
    | ok u => simp only [h4] at h; cases h; exact .inr (.inl ⟨_, v, _, u, _, .inr ⟨a, st, rfl, hs, rfl⟩, rfl, h4, rfl, fun _ hr => hr v (by simp [hs])⟩)

theorem execSet_cases {a b : Word} {s t : State} (h : exec (.set a b) s = .next t) : ExecCases (.set a b) s t := by
  simp only [exec, execSet] at h
  cases h1 : resolve s b (s.slot 2) with
  | error e => rw [h1] at h; cases h; exact .inl ⟨e, rfl, faultOf_resolve _ h1 (by simp [Instr.sources]) (by simp [Instr.operands])⟩
  | ok v =>
    rw [h1, ok_bind] at h
    cases h4 : writeThrough s v (s.slot 1) with
    | error e => simp only [h4] at h; cases h; exact .inl ⟨e, rfl, .inr (.inr (.inr (.inl (writeThrough_error_iff.1 h4))))⟩
    | ok u => simp only [h4] at h; cases h; exact .inr (.inl ⟨s, v, _, u, _, .inl rfl, rfl, h4, rfl, fun hr _ => resolve_le h1 hr⟩)

theorem execNot_cases {a b : Word} {s t : State} (h : exec (.not a b) s = .next t) : ExecCases (.not a b) s t := by
  simp only [exec, execNot] at h
  cases h1 : resolve s b (s.slot 2) with
  | error e => rw [h1] at h; cases h; exact .inl ⟨e, rfl, faultOf_resolve _ h1 (by simp [Instr.sources]) (by simp [Instr.operands])⟩
  | ok v =>
    rw [h1, ok_bind] at h
    cases h4 : writeThrough s (aluNot v) (s.slot 1) with
    | error e => simp only [h4] at h; cases h; exact .inl ⟨e, rfl, .inr (.inr (.inr (.inl (writeThrough_error_iff.1 h4))))⟩
    | ok u =>
      simp only [h4] at h; cases h
      refine .inr (.inl ⟨s, _, _, u, _, .inl rfl, rfl, h4, rfl, fun hr _ => ?_⟩)
      have := @Nat.and_le_right (~~~v).toNat 32767
      simpa [aluNot, Config.dataMask] using this

theorem execWmem_cases {a b : Word} {s t : State} (h : exec (.wmem a b) s = .next t) : ExecCases (.wmem a b) s t := by
  simp only [exec, execWmem] at h
  cases h1 : resolve s a (s.slot 1) with
  | error e => rw [h1] at h; cases h; exact .inl ⟨e, rfl, faultOf_resolve _ h1 (by simp [Instr.sources]) (by simp [Instr.operands])⟩
  | ok ad =>
    rw [h1, ok_bind] at h
    cases h2 : resolve s b (s.slot 2) with
    | error e => rw [h2] at h; cases h; exact .inl ⟨e, rfl, faultOf_resolve _ h2 (by simp [Instr.sources]) (by simp [Instr.operands])⟩
    | ok v =>
    rw [h2, ok_bind] at h
    cases h4 : writeThrough s v ad.toNat with
    | error e =>
      simp only [h4] at h; cases h
      obtain ⟨h5, h6⟩ := writeThrough_error_iff.1 h4
      exact .inl ⟨e, rfl, .inr (.inl ⟨_, ⟨a, b, .inr rfl⟩, h5, ad.isLt, h6⟩)⟩
    | ok u =>
      simp only [h4] at h; cases h
      refine .inr (.inl ⟨s, v, ad.toNat, u, _, .inl rfl, ?_, h4, rfl, fun hr _ => resolve_le h2 hr⟩)
      exact ⟨ad, h1, rfl⟩

theorem execRmem_cases {a b : Word} {s t : State} (h : exec (.rmem a b) s = .next t) : ExecCases (.rmem a b) s t := by
  simp only [exec, execRmem] at h
  cases h1 : resolve s b (s.slot 2) with
  | error e => rw [h1] at h; cases h; exact .inl ⟨e, rfl, faultOf_resolve _ h1 (by simp [Instr.sources]) (by simp [Instr.operands])⟩
  | ok ad =>
    rw [h1, ok_bind] at h
    by_cases h2 : ad.toNat < s.memLimit.toNat
    · rw [memRead_of_lt h2, ok_bind] at h
      cases h3 : resolve s (s.cell ad.toNat) ad.toNat with
      | error e =>
        rw [h3] at h; cases h
        obtain ⟨h5, h6⟩ := resolve_error_iff.1 h3
        exact .inl ⟨e, rfl, .inr (.inr (.inl ⟨ad.toNat, a, b, rfl, h2, h5, h6⟩))⟩
      | ok v =>
      rw [h3, ok_bind] at h
      cases h4 : writeThrough s v (s.slot 1) with
      | error e => simp only [h4] at h; cases h; exact .inl ⟨e, rfl, .inr (.inr (.inr (.inl (writeThrough_error_iff.1 h4))))⟩
      | ok u => simp only [h4] at h; cases h; exact .inr (.inl ⟨s, v, _, u, _, .inl rfl, rfl, h4, rfl, fun hr _ => resolve_le h3 hr⟩)
    · rw [memRead_of_le (by omega)] at h
      cases h
      exact .inl ⟨_, rfl, .inr (.inl ⟨_, ⟨a, b, .inl rfl⟩, by omega, ad.isLt, rfl⟩)⟩

/-- What one instruction can do: one of the cases above, whatever the instruction. -/
theorem exec_cases {i : Instr} {s t : State} (h : exec i s = .next t) : ExecCases i s t := by
  cases i with
  | halt => exact execHalt_cases h
  | noop => exact execNoop_cases h
  | inp => exact execIn_cases h
  | ret => exact execRet_cases h
  | add => exact execAdd_cases h
  | mult => exact execMult_cases h
  | mod => exact execMod_cases h
  | and => exact execAnd_cases h
  | or => exact execOr_cases h
  | eq => exact execEq_cases h
  | gt => exact execGt_cases h
  | jt => exact execJt_cases h
  | jf => exact execJf_cases h
  | jmp => exact execJmp_cases h
  | out => exact execOut_cases h
  | push => exact execPush_cases h
  | call => exact execCall_cases h
  | pop => exact execPop_cases h
  | set => exact execSet_cases h
  | not => exact execNot_cases h
  | wmem => exact execWmem_cases h
  | rmem => exact execRmem_cases h

/-- What the completion of IN by a character can do. -/
theorem completeChar_cases {v : Word} {s t : State} (h : completeChar v s = .next t) :
    (∃ e, t = s.enterFault e ∧ writeThrough s v (s.slot 1) = .error e) ∨
    (∃ u, writeThrough s v (s.slot 1) = .ok u ∧ t = (u.setRunState .running).setPc (s.pc + 2)) := by
  unfold completeChar at h
  cases hw : writeThrough s v (s.slot 1) with
  | error e =>
    simp only [hw, error_bind, commit_error, Host.Outcome.next.injEq] at h
    exact .inl ⟨e, h.symm, rfl⟩
  | ok u =>
    simp only [hw, ok_bind, pure, Except.pure, commit_goOn, Host.Outcome.next.injEq] at h
    exact .inr ⟨u, rfl, h.symm⟩

/-- What one action of the host can do to a waiting machine (R241, R281). -/
theorem hostAct_cases {a : HostAction} {s t : State} (h : hostAct a s = .next t) :
    (∃ v, a = .respond (.char v) ∧ completeChar v s = .next t) ∨
    (a = .respond .retry ∧ t = s.setRunState .running) ∨
    (a = .respond .terminate ∧ t = s.setRunState .halted) ∨
    (a = .respond .closed ∧ t = s.enterFault ⟨.inputClosed, 0, 0⟩) ∨
    ((a = .save ∨ a = .usageHint) ∧ t = s.setRunState .running) ∨
    (∃ a0 v0 a1 v1, a = .patch a0 v0 a1 v1 ∧ a0.toNat < s.memLimit.toNat ∧ a1.toNat < s.memLimit.toNat ∧
      t = ((s.setCell a0.toNat v0).setCell a1.toNat v1).setRunState .running) := by
  match a with
  | .respond (.char v) => exact .inl ⟨v, rfl, h⟩
  | .respond .retry =>
    cases h
    exact .inr (.inl ⟨rfl, rfl⟩)
  | .respond .terminate =>
    cases h
    exact .inr (.inr (.inl ⟨rfl, rfl⟩))
  | .respond .closed =>
    cases h
    exact .inr (.inr (.inr (.inl ⟨rfl, rfl⟩)))
  | .save =>
    cases h
    exact .inr (.inr (.inr (.inr (.inl ⟨.inl rfl, rfl⟩))))
  | .usageHint =>
    cases h
    exact .inr (.inr (.inr (.inr (.inl ⟨.inr rfl, rfl⟩))))
  | .patch a0 v0 a1 v1 =>
    simp only [hostAct, hostPatch] at h
    split at h
    · rename_i hlt
      cases h
      exact .inr (.inr (.inr (.inr (.inr ⟨a0, v0, a1, v1, rfl, hlt.1, hlt.2, rfl⟩))))
    · cases h

/-- What one step can do: execute the instruction fetched, take the fetch's fault, or take the host's next action. -/
theorem step_cases {s t : State} (h : step s = .next t) :
    (s.runState = .running ∧ ∃ i, fetchInstr s = .ok i ∧ exec i s = .next t) ∨
    (s.runState = .running ∧ ∃ f, fetchInstr s = .error f ∧ t = s.enterFault f) ∨
    (s.runState = .waitIn ∧ ∃ a rest, s.hostQueue = a :: rest ∧ hostAct a (s.setQueue rest) = .next t) := by
  unfold step at h
  cases hr : s.runState with
  | running =>
    simp only [hr] at h
    cases hf : fetchInstr s with
    | ok i =>
      simp only [hf] at h
      exact .inl ⟨rfl, i, rfl, h⟩
    | error f =>
      simp only [hf, Host.Outcome.next.injEq] at h
      exact .inr (.inl ⟨rfl, f, rfl, h.symm⟩)
  | waitIn =>
    simp only [hr, hostTurn] at h
    cases hq : s.hostQueue with
    | nil => simp [hq] at h
    | cons a rest =>
      simp only [hq] at h
      exact .inr (.inr ⟨rfl, a, rest, rfl, h⟩)
  | halted => simp [hr] at h
  | faulted => simp [hr] at h

end Sys2Proof.Machine
end

