-- ==== Sys2Proof/Laws/PerInstr.lean ====
section
/-! SUPPORT. Per instruction: the arity of its opcode word is the number of its operand words, and its source operands stand
among them in slot order (30_encoding.md R94, R96). -/

/-- The operand shape of an instruction agrees with the opcode map. -/
def Sys2Proof.Laws.OperandShape.Statement (i : Sys2Proof.Instr) : Prop :=
  Sys2Proof.arityOf i.opcode = some i.operands.length ∧ i.sources.Sublist i.operands

namespace Sys2Proof.Laws.OperandShape

theorem halt : Statement (.halt) := ⟨rfl, by simp [Instr.sources, Instr.operands]⟩
theorem set (a b : Sys2Proof.Word) : Statement (.set a b) := ⟨rfl, by simp [Instr.sources, Instr.operands]⟩
theorem push (a : Sys2Proof.Word) : Statement (.push a) := ⟨rfl, by simp [Instr.sources, Instr.operands]⟩
theorem pop (a : Sys2Proof.Word) : Statement (.pop a) := ⟨rfl, by simp [Instr.sources, Instr.operands]⟩
theorem eq (a b c : Sys2Proof.Word) : Statement (.eq a b c) := ⟨rfl, by simp [Instr.sources, Instr.operands]⟩
theorem gt (a b c : Sys2Proof.Word) : Statement (.gt a b c) := ⟨rfl, by simp [Instr.sources, Instr.operands]⟩
theorem jmp (a : Sys2Proof.Word) : Statement (.jmp a) := ⟨rfl, by simp [Instr.sources, Instr.operands]⟩
theorem jt (a b : Sys2Proof.Word) : Statement (.jt a b) := ⟨rfl, by simp [Instr.sources, Instr.operands]⟩
theorem jf (a b : Sys2Proof.Word) : Statement (.jf a b) := ⟨rfl, by simp [Instr.sources, Instr.operands]⟩
theorem add (a b c : Sys2Proof.Word) : Statement (.add a b c) := ⟨rfl, by simp [Instr.sources, Instr.operands]⟩
theorem mult (a b c : Sys2Proof.Word) : Statement (.mult a b c) := ⟨rfl, by simp [Instr.sources, Instr.operands]⟩
theorem mod (a b c : Sys2Proof.Word) : Statement (.mod a b c) := ⟨rfl, by simp [Instr.sources, Instr.operands]⟩
theorem and (a b c : Sys2Proof.Word) : Statement (.and a b c) := ⟨rfl, by simp [Instr.sources, Instr.operands]⟩
theorem or (a b c : Sys2Proof.Word) : Statement (.or a b c) := ⟨rfl, by simp [Instr.sources, Instr.operands]⟩
theorem not (a b : Sys2Proof.Word) : Statement (.not a b) := ⟨rfl, by simp [Instr.sources, Instr.operands]⟩
theorem rmem (a b : Sys2Proof.Word) : Statement (.rmem a b) := ⟨rfl, by simp [Instr.sources, Instr.operands]⟩
theorem wmem (a b : Sys2Proof.Word) : Statement (.wmem a b) := ⟨rfl, by simp [Instr.sources, Instr.operands]⟩
theorem call (a : Sys2Proof.Word) : Statement (.call a) := ⟨rfl, by simp [Instr.sources, Instr.operands]⟩
theorem ret : Statement (.ret) := ⟨rfl, by simp [Instr.sources, Instr.operands]⟩
theorem out (a : Sys2Proof.Word) : Statement (.out a) := ⟨rfl, by simp [Instr.sources, Instr.operands]⟩
theorem inp (a : Sys2Proof.Word) : Statement (.inp a) := ⟨rfl, by simp [Instr.sources, Instr.operands]⟩
theorem noop : Statement (.noop) := ⟨rfl, by simp [Instr.sources, Instr.operands]⟩

end Sys2Proof.Laws.OperandShape
end

