-- ==== Sys2Proof/Tests/Slice0.lean ====
section
/-! SUPPORT. Small tests of one step each, with the results the spec states (its Example lines and the vectors of
95_test_vectors.md), and for every statement a state and operands that meet its hypotheses. -/

namespace Sys2Proof.Tests

open Sys2Proof.Machine Sys2Proof.Claims

/-- A fresh reset with `ws` in memory from address 0 (95_test_vectors.md, Conventions). -/
def mk (ws : List Word) : State :=
  { State.reset with mem := Memory.ofBytes 0 (bytesOfWords ws), memLimit := BitVec.ofNat 16 ws.length }

/-- `mk ws` with r0 = `a` and r1 = `b`. -/
def mkRegs (a b : Word) (ws : List Word) : State := ((mk ws).setReg 0 a).setReg 1 b

/-- `mk ws` waiting for the host, which will do `q`. -/
def mkWait (q : List HostAction) (ws : List Word) : State := { mk ws with runState := .waitIn, hostQueue := q }

/-- STACK_DEPTH 1, the least there is (decision D10). -/
def depth1 : Config.StackDepth := some ⟨1, by decide⟩

/-- The next state, if there is one. -/
def next? : Host.Outcome State Fault Refusal → Option State
  | .next t => some t
  | .fault _ => none
  | .refused _ => none

/-- Whether there is a next state and `p` holds of it. -/
def after (o : Host.Outcome State Fault Refusal) (p : State → Bool) : Bool := (next? o).any p

/-- Whether a state is FAULTED with this record: code, fault_pc, fault_addr, fault_value. -/
def hasFault (c : BitVec 3) (pc addr value : Word) (t : State) : Bool :=
  t.runState == .faulted && t.faultCode == c && t.faultPc == pc && t.faultAddr == addr && t.faultValue == value

/-- The words of memory. -/
def cells (t : State) : List Word := (List.range t.memLimit.toNat).map t.cell

/-! WellFormed: an illegal source operand word in each place an S operand can stand (R102). -/

theorem test_illformed_operand_a : Instr.wellFormed (.push 32776) = false := by decide
theorem test_illformed_operand_b : Instr.wellFormed (.set 0 32776) = false := by decide
theorem test_illformed_operand_c : Instr.wellFormed (.add 0 1 65535) = false := by decide
theorem test_illformed_wmem_address : Instr.wellFormed (.wmem 32776 1) = false := by decide
theorem test_wellformed_any_descriptor : Instr.wellFormed (.set 65535 32775) = true := by decide

/-! Decode: every constructor from the words of R94, the opcode word written out in its 16 bits. -/

theorem test_decode_halt : decode [0b0000000000000000] = .ok (.halt, []) := rfl
theorem test_decode_set : decode [0b0000000000000001, 32768, 3] = .ok (.set 32768 3, []) := rfl
theorem test_decode_push : decode [0b0000000000000010, 32770] = .ok (.push 32770, []) := rfl
theorem test_decode_pop : decode [0b0000000000000011, 32769] = .ok (.pop 32769, []) := rfl
theorem test_decode_eq : decode [0b0000000000000100, 32768, 32769, 9] = .ok (.eq 32768 32769 9, []) := rfl
theorem test_decode_gt : decode [0b0000000000000101, 32768, 32767, 0] = .ok (.gt 32768 32767 0, []) := rfl
theorem test_decode_jmp : decode [0b0000000000000110, 10] = .ok (.jmp 10, []) := rfl
theorem test_decode_jt : decode [0b0000000000000111, 32768, 20] = .ok (.jt 32768 20, []) := rfl
theorem test_decode_jf : decode [0b0000000000001000, 32768, 20] = .ok (.jf 32768 20, []) := rfl
theorem test_decode_add : decode [0b0000000000001001, 32768, 32758, 15] = .ok (.add 32768 32758 15, []) := rfl
theorem test_decode_mult : decode [0b0000000000001010, 32768, 32769, 200] = .ok (.mult 32768 32769 200, []) := rfl
theorem test_decode_mod : decode [0b0000000000001011, 32768, 17, 5] = .ok (.mod 32768 17 5, []) := rfl
theorem test_decode_and : decode [0b0000000000001100, 32768, 12, 10] = .ok (.and 32768 12 10, []) := rfl
theorem test_decode_or : decode [0b0000000000001101, 32768, 12, 10] = .ok (.or 32768 12 10, []) := rfl
theorem test_decode_not : decode [0b0000000000001110, 32768, 0] = .ok (.not 32768 0, []) := rfl
theorem test_decode_rmem : decode [0b0000000000001111, 32768, 4, 7, 10] = .ok (.rmem 32768 4, [7, 10]) := rfl
theorem test_decode_wmem : decode [0b0000000000010000, 5, 99] = .ok (.wmem 5 99, []) := rfl
theorem test_decode_call : decode [0b0000000000010001, 10] = .ok (.call 10, []) := rfl
theorem test_decode_ret : decode [0b0000000000010010] = .ok (.ret, []) := rfl
theorem test_decode_out : decode [0b0000000000010011, 3] = .ok (.out 3, []) := rfl
theorem test_decode_in : decode [0b0000000000010100, 32768] = .ok (.inp 32768, []) := rfl
theorem test_decode_noop : decode [0b0000000000010101, 0] = .ok (.noop, [0]) := rfl
/-- R101: 22 and the register tags are no opcodes; R104: a list that ends early is cut short. -/
theorem test_decode_rejects : decode [22] = .error (.invalidOpcode 22) ∧ decode [32768] = .error (.invalidOpcode 32768) ∧
    decode [9, 32768, 1] = .error .truncated ∧ decode [] = .error .truncated := ⟨rfl, rfl, rfl, rfl⟩
/-- L1-14: the bytes 06 00 0A 00 are the words 6, 10. -/
theorem test_decode_bytes : wordsOfBytes [6, 0, 10, 0] = [6, 10] ∧ decodeBytes [6, 0, 10, 0, 1] = .ok (.jmp 10, [1]) :=
  ⟨rfl, rfl⟩
theorem test_table_word : decodeTableWord 16 9 = some (.add 0 0 0) ∧ decodeTableWord 48 0x000380000001 = some (.set 32768 3) := by
  decide
theorem test_fetch_word_runs_from_reset : after (step (State.reset.withFetchWord 16 9)) (fun t => t.pc == 4) = true := by
  decide
/-- R105: `ADD r1, r0, 48`, and #n for an invalid word. -/
theorem test_asm_text : Instr.asmText (.add 32769 32768 48) = "ADD r1, r0, 48" ∧ Instr.asmText (.push 32776) = "PUSH #32776" := by
  decide

/-! The engine (vectors E1 to E6) -/

theorem test_E1 : after (step (mk [22])) (hasFault 1 0 0 22) = true := by decide
theorem test_E2 : after (step (mk [32768])) (hasFault 1 0 0 32768) = true := by decide
theorem test_E3 : after (step (mk [])) (hasFault 4 0 0 0) = true := by decide
theorem test_E4 : after (step (mk [1, 32768])) (hasFault 4 0 2 0) = true := by decide
theorem test_E5 : after (step ((mk [21]).setPc 1)) (hasFault 4 1 1 0) = true := by decide
theorem test_E6 : after (step (mk [9, 32768, 32776, 32777])) (hasFault 2 0 2 32776) = true := by decide

/-! The instructions: the vectors most likely to show a bug, at most two each -/

theorem test_halt_H1 : after (step (mk [0])) (fun t => t.runState == .halted && t.pc == 0) = true := by decide
theorem test_noop_N1 : after (step (mk [21, 0])) (fun t => t.runState == .running && t.pc == 1) = true := by decide
theorem test_set_S1 : after (step (mk [1, 32768, 3])) (fun t => t.reg 0 == 3 && t.pc == 3) = true := by decide
theorem test_set_S4 : after (step (mk [1, 40000, 7])) (fun t => cells t == [1, 7, 7] && t.pc == 3) = true := by decide
theorem test_push_PU1 : after (step ((mk [2, 32770]).setReg 2 7)) (fun t => t.stack == [7] && t.pc == 2) = true := by decide
theorem test_push_PU4 : after (step { mk [2, 5] with stack := [1], stackDepth := depth1 })
    (fun t => hasFault 6 0 0 0 t && t.stack == [1]) = true := by decide
theorem test_pop_PO1 : after (step ((mk [3, 32769]).setStack [7])) (fun t => t.reg 1 == 7 && t.stack == [] && t.pc == 2) = true := by
  decide
theorem test_pop_PO3 : after (step ((mk [3, 0]).setStack [9])) (fun t => cells t == [3, 9]) = true := by decide
theorem test_eq_EQ1 : after (step (mkRegs 0 9 [4, 32768, 32769, 9])) (fun t => t.reg 0 == 1 && t.pc == 4) = true := by decide
theorem test_eq_EQ4 : after (step (mk [4, 5, 1, 1])) (fun t => cells t == [4, 1, 1, 1]) = true := by decide
theorem test_gt_GT2 : after (step (mkRegs 3 0 [5, 32768, 7, 7])) (fun t => t.reg 0 == 0) = true := by decide
theorem test_gt_GT4 : after (step (mkRegs 32768 0 [5, 32768, 32768, 32767])) (fun t => t.reg 0 == 1) = true := by decide
theorem test_jmp_J1 : after (step (mk [6, 10])) (fun t => t.pc == 10) = true := by decide
theorem test_jmp_J2 : after (step (mkRegs 40000 0 [6, 32768])) (fun t => t.pc == 40000) = true := by decide
theorem test_jt_JT3 : after (step (mkRegs 32768 0 [7, 32768, 20])) (fun t => t.pc == 20) = true := by decide
theorem test_jt_JT4 : after (step (mk [7, 0, 32776])) (hasFault 2 0 2 32776) = true := by decide
theorem test_jf_JF1 : after (step (mk [8, 32768, 20])) (fun t => t.pc == 20) = true := by decide
theorem test_jf_JF2 : after (step (mkRegs 5 0 [8, 32768, 20])) (fun t => t.pc == 3) = true := by decide
theorem test_add_A1 : after (step (mk [9, 32768, 32758, 15])) (fun t => t.reg 0 == 5) = true := by decide
theorem test_add_L1_10 : after (step (mk [9, 32767, 32767, 2])) (fun t => cells t == [9, 1, 32767, 2] && t.pc == 4) = true := by
  decide
theorem test_mult_M1 : after (step (mkRegs 0 300 [10, 32768, 32769, 200])) (fun t => t.reg 0 == 27232) = true := by decide
theorem test_mult_M2 : after (step (mk [10, 32768, 32767, 32767])) (fun t => t.reg 0 == 1) = true := by decide
theorem test_mod_MO1 : after (step (mk [11, 32768, 17, 5])) (fun t => t.reg 0 == 2) = true := by decide
theorem test_mod_MO6 : after (step (mk [11, 32768, 32776, 0])) (hasFault 2 0 2 32776) = true := by decide
theorem test_and_AN1 : after (step (mk [12, 32768, 12, 10])) (fun t => t.reg 0 == 8) = true := by decide
theorem test_and_AN3 : after (step (mkRegs 32768 32768 [12, 32768, 32768, 32769])) (fun t => t.reg 0 == 32768) = true := by
  decide
theorem test_or_OR1 : after (step (mk [13, 32768, 12, 10])) (fun t => t.reg 0 == 14) = true := by decide
theorem test_or_OR3 : after (step (mkRegs 32768 0 [13, 32768, 32768, 1])) (fun t => t.reg 0 == 32769) = true := by decide
theorem test_not_NT3 : after (step (mk [14, 32768, 21845])) (fun t => t.reg 0 == 10922 && t.pc == 3) = true := by decide
theorem test_not_NT4 : after (step (mkRegs 32768 0 [14, 32768, 32768])) (fun t => t.reg 0 == 32767) = true := by decide
theorem test_rmem_RM2 : after (step ((mk [15, 32768, 4, 0, 32770]).setReg 2 55)) (fun t => t.reg 0 == 55) = true := by decide
theorem test_rmem_RM3 : after (step (mk [15, 32768, 4, 0, 32776])) (hasFault 2 0 4 32776) = true := by decide
theorem test_wmem_W1 : after (step (mk [16, 5, 99, 0, 0, 32769]))
    (fun t => t.reg 1 == 99 && cells t == [16, 5, 99, 0, 0, 32769]) = true := by decide
theorem test_wmem_W5 : after (step (mkRegs 3 32770 [16, 32768, 32769, 0]))
    (fun t => cells t == [16, 32768, 32769, 32770]) = true := by decide
theorem test_call_C1 : after (step (mk [17, 10])) (fun t => t.stack == [2] && t.pc == 10) = true := by decide
theorem test_call_at_32766 : after (exec (.call 10) ((mk []).setPc 32766)) (fun t => t.stack == [32768]) = true := by decide
theorem test_ret_RT1 : after (step ((mk [18]).setStack [2])) (fun t => t.pc == 2 && t.stack == []) = true := by decide
theorem test_ret_RT2 : after (step (mk [18])) (fun t => t.runState == .halted && t.pc == 0) = true := by decide
theorem test_out_O2 : after (step { mkRegs 65 0 [19, 32768] with output := [3] }) (fun t => t.output == [3, 65] && t.pc == 2) = true := by
  decide
theorem test_out_O3 : after (step (mk [19, 32776])) (fun t => hasFault 2 0 1 32776 t && t.output == []) = true := by decide
theorem test_in_waits : after (step (mk [20, 32768])) (fun t => t.runState == .waitIn && t.pc == 0) = true := by decide
theorem test_in_I1 : after (step (mkWait [.respond (.char 104)] [20, 32768]))
    (fun t => t.reg 0 == 104 && t.pc == 2 && t.runState == .running) = true := by decide
/-- I4: the host's Closed response. -/
theorem test_host_closed : after (step (mkWait [.respond .closed] [20, 32768])) (hasFault 7 0 0 0) = true := by decide
/-- R241 corner case 3, R282: the patch overwrites the waiting IN's descriptor and follows no tag. -/
theorem test_patch_changes_descriptor : after (step (mkWait [.patch 1 7 0 21] [20, 32768])) (fun t => cells t == [21, 7]) = true := by
  decide

/-! Load (LD1 to LD3) -/

theorem test_load_LD1 : (loadImage [0x01, 0x80, 0x03, 0x00] none []).toOption.map (fun t => (cells t, t.memLimit)) =
    some ([32769, 3], 2) := by decide
theorem test_load_LD2 : loadImage [0, 0, 0] none [] = .error .oddLength := rfl
theorem test_load_LD3 : loadImage (List.replicate 65538 0) none [] = .error .tooLarge := by
  have h : (List.replicate 65538 (0 : Byte)).length = 65538 := List.length_replicate
  rw [loadImage, h]
  rfl

/-! Witnesses: for every statement that has hypotheses, a state and operands that meet them, clause by clause, at the
boundary values of their ranges. 32767 is the last literal, 32768 and 32775 the first and last register tag, 32776 the
first word that is neither. -/

/-- A state with r0 = 5, r7 = 32768 and four words in memory. -/
def w0 : State := ((mk [9, 32775, 32767, 32768]).setReg 0 5).setReg 7 32768

theorem test_witness_DecodedWordsAreTheEncoding : decode [1, 5, 7, 9] = .ok (.set 5 7, [9]) := rfl
theorem test_witness_IllegalOpcodeFaults : (mk [22]).runState = .running ∧ SlotThere (mk [22]) 0 ∧
    21 < ((mk [22]).cell (mk [22]).pc.toNat).toNat := by decide
theorem test_witness_StepRunsDecodedInstruction : (mk [21]).runState = .running ∧
    ∀ k w, (encode .noop)[k]? = some w → SlotThere (mk [21]) k ∧ (mk [21]).cell ((mk [21]).pc.toNat + k) = w := by
  refine ⟨rfl, fun k w h => ?_⟩
  match k, h with
  | 0, h =>
    obtain rfl : (21 : Word) = w := Option.some.inj h
    decide
theorem test_witness_OpcodeFetchOutsideMemoryFaults : ((mk [21]).setPc 1).runState = .running ∧
    ((mk [21]).setPc 1).memLimit.toNat ≤ ((mk [21]).setPc 1).pc.toNat := by decide
theorem test_witness_OperandFetchOutsideMemoryFaults : (mk [1, 32768]).runState = .running ∧ SlotThere (mk [1, 32768]) 0 ∧
    arityOf ((mk [1, 32768]).cell (mk [1, 32768]).pc.toNat) = some 2 ∧ 1 ≤ 2 ∧ 2 ≤ 2 ∧
    (∀ j, j < 2 → SlotThere (mk [1, 32768]) j) ∧ ¬ SlotThere (mk [1, 32768]) 2 := by decide
theorem test_witness_NoStepOfItsOwnWhenNotRunning : ((mk []).setRunState .halted).runState = .halted ∧
    ((mk []).setRunState .faulted).runState = .faulted ∧ (mkWait [] [20, 0]).runState = .waitIn ∧
    (mkWait [] [20, 0]).hostQueue = [] := by decide
theorem test_witness_RunningMachineAlwaysSteps : State.reset.runState = .running := rfl

theorem test_witness_SetCopiesItsSource : valueOf w0 32775 = some 32768 ∧ SlotThere w0 1 ∧ valueOf w0 32776 = none := by decide
theorem test_witness_PushAddsToTheStack : (valueOf w0 32767 = some 32767 ∧ StackHasRoom w0) ∧ valueOf w0 32776 = none ∧
    (valueOf { w0 with stack := [7], stackDepth := depth1 } 32767 = some 32767 ∧
      StackIsFull { w0 with stack := [7], stackDepth := depth1 }) :=
  ⟨⟨by decide, fun _ h => by cases h⟩, by decide, by decide, ⟨1, by decide⟩, rfl, by decide⟩
theorem test_witness_PopWritesTheTop : ((w0.setStack [32768]).stack = 32768 :: [] ∧ SlotThere (w0.setStack [32768]) 1) ∧
    w0.stack = [] := by decide
theorem test_witness_EqWritesEquality : valueOf w0 32767 = some 32767 ∧ valueOf w0 32768 = some 5 ∧ SlotThere w0 1 ∧
    valueOf w0 32776 = none := by decide
theorem test_witness_GtWritesGreater : valueOf w0 32775 = some 32768 ∧ valueOf w0 32767 = some 32767 ∧ SlotThere w0 1 ∧
    valueOf w0 32776 = none := by decide
theorem test_witness_JmpGoesToItsTarget : valueOf w0 32775 = some 32768 ∧ valueOf w0 32776 = none := by decide
theorem test_witness_JtJumpsWhenNonZero : (valueOf w0 32768 = some 5 ∧ valueOf w0 10 = some 10 ∧ (5 : Word) ≠ 0) ∧
    (valueOf w0 0 = some 0 ∧ ¬ (0 : Word) ≠ 0) ∧ valueOf w0 32776 = none := by decide
theorem test_witness_JfJumpsWhenZero : (valueOf w0 32769 = some 0 ∧ valueOf w0 10 = some 10 ∧ (0 : Word) = 0) ∧
    (valueOf w0 1 = some 1 ∧ ¬ (1 : Word) = 0) ∧ valueOf w0 32776 = none := by decide
theorem test_witness_CallPushesTheReturnAddress : (valueOf w0 32775 = some 32768 ∧ StackHasRoom w0) ∧
    valueOf w0 32776 = none ∧
    (valueOf { w0 with stack := [7], stackDepth := depth1 } 3 = some 3 ∧ StackIsFull { w0 with stack := [7], stackDepth := depth1 }) :=
  ⟨⟨by decide, fun _ h => by cases h⟩, by decide, by decide, ⟨1, by decide⟩, rfl, by decide⟩
theorem test_witness_RetGoesToTheTop : (w0.setStack [65535, 2]).stack = 65535 :: [2] ∧ w0.stack = [] := by decide
theorem test_witness_AddWritesTheSum : valueOf w0 32767 = some 32767 ∧ valueOf w0 1 = some 1 ∧ SlotThere w0 1 ∧
    valueOf w0 32776 = none := by decide
theorem test_witness_MultWritesTheProduct : valueOf w0 32767 = some 32767 ∧ valueOf w0 32775 = some 32768 ∧ SlotThere w0 1 ∧
    valueOf w0 32776 = none := by decide
theorem test_witness_ModWritesTheRemainder : (valueOf w0 32767 = some 32767 ∧ valueOf w0 1 = some 1 ∧ (1 : Word) ≠ 0 ∧ SlotThere w0 1) ∧
    valueOf w0 32776 = none ∧ valueOf w0 0 = some 0 := by decide
theorem test_witness_AndWritesTheConjunction : valueOf w0 32775 = some 32768 ∧ valueOf w0 32767 = some 32767 ∧ SlotThere w0 1 ∧
    valueOf w0 32776 = none := by decide
theorem test_witness_OrWritesTheDisjunction : valueOf w0 32775 = some 32768 ∧ valueOf w0 1 = some 1 ∧ SlotThere w0 1 ∧
    valueOf w0 32776 = none := by decide
theorem test_witness_NotWritesTheComplement : valueOf w0 32775 = some 32768 ∧ SlotThere w0 1 ∧ valueOf w0 32776 = none := by decide
/-- Address 3, the last cell, holds tag 32768; address 4 is N; address 0 of [32776, 0] holds a word without a value. -/
theorem test_witness_RmemReadsAndResolves :
    (valueOf w0 3 = some 3 ∧ (3 : Word).toNat < w0.memLimit.toNat ∧ valueOf w0 (w0.cell (3 : Word).toNat) = some 5 ∧ SlotThere w0 1) ∧
    valueOf w0 32776 = none ∧ (valueOf w0 4 = some 4 ∧ w0.memLimit.toNat ≤ (4 : Word).toNat) ∧
    (valueOf (mk [32776, 0]) 0 = some 0 ∧ (0 : Word).toNat < (mk [32776, 0]).memLimit.toNat ∧
      valueOf (mk [32776, 0]) ((mk [32776, 0]).cell (0 : Word).toNat) = none) := by decide
theorem test_witness_WmemWritesThrough :
    (valueOf w0 3 = some 3 ∧ valueOf w0 32768 = some 5 ∧ (3 : Word).toNat < w0.memLimit.toNat) ∧ valueOf w0 32776 = none ∧
    (valueOf w0 4 = some 4 ∧ w0.memLimit.toNat ≤ (4 : Word).toNat) := by decide
theorem test_witness_OutEmitsItsValue : valueOf w0 32775 = some 32768 ∧ valueOf w0 32776 = none := by decide
theorem test_witness_InWaitsAndIsCompleted :
    ((mkWait [.respond (.char 65535)] [20, 0]).runState = .waitIn ∧
      (mkWait [.respond (.char 65535)] [20, 0]).hostQueue = .respond (.char 65535) :: [] ∧
      SlotThere (mkWait [.respond (.char 65535)] [20, 0]) 1) ∧
    (mkWait [.respond .retry] [20, 0]).hostQueue = .respond .retry :: [] ∧
    (mkWait [.respond .terminate] [20, 0]).hostQueue = .respond .terminate :: [] ∧
    (mkWait [.respond .closed, .save] [20, 0]).hostQueue = .respond .closed :: [.save] := by decide

theorem test_witness_MemoryAccessIsRangeChecked : w0.Inv ∧ w0.memLimit.toNat ≤ 4 ∧ 3 < w0.memLimit.toNat := by decide
/-- Descriptors at both ends of the tags and just outside them. -/
theorem test_witness_WriteThroughFollowsTheDescriptor :
    (mk [32767]).memLimit.toNat ≤ 1 ∧
    (0 < (mk [32768]).memLimit.toNat ∧ ((mk [32768]).cell 0).toNat = 32768 + (0 : RegIx).toNat) ∧
    ((mk [32775]).cell 0).toNat = 32768 + (7 : RegIx).toNat ∧
    (0 < (mk [32767]).memLimit.toNat ∧ ¬ IsTag ((mk [32767]).cell 0)) ∧ ¬ IsTag ((mk [32776]).cell 0) := by decide
theorem test_witness_ResolverFollowsTheValueRanges : (32767 : Word).toNat < 32768 ∧
    (32768 : Word).toNat = 32768 + (0 : RegIx).toNat ∧ (32775 : Word).toNat = 32768 + (7 : RegIx).toNat ∧
    32775 < (32776 : Word).toNat := by decide
theorem test_witness_StackIsLastInFirstOut : StackIsFull { w0 with stack := [7], stackDepth := depth1 } ∧
    StackHasRoom { w0 with stack := [], stackDepth := depth1 } ∧ w0.stackDepth = none :=
  ⟨⟨⟨1, by decide⟩, rfl, by decide⟩, fun d h => by cases h; decide, rfl⟩

theorem test_witness_LoadGivesTheFreshReset : ([7] : List Byte).length % 2 = 1 ∧
    ((List.replicate 65538 (0 : Byte)).length % 2 = 0 ∧ 32768 < (List.replicate 65538 (0 : Byte)).length / 2) ∧
    (List.replicate 65536 (0 : Byte)).length % 2 = 0 ∧ (List.replicate 65536 (0 : Byte)).length / 2 ≤ 32768 := by
  rw [List.length_replicate, List.length_replicate]
  decide
/-- With STACK_DEPTH 1: the empty image loads, an odd one does not, one entry fits and two are too many. -/
theorem test_witness_RestoreTakesTheSnapshot : (∃ t, loadImage [] depth1 [] = .ok t) ∧
    loadImage [1] depth1 [] = .error .oddLength ∧
    (∀ d, depth1 = some d → ([7] : List Word).length ≤ d.val) ∧
    (Snapshot.mk none (some []) (some 0)).registers = none ∧ ([0, 0, 0, 0, 0, 0, 0] : List Int).length ≠ 8 ∧
    (depth1 = some ⟨1, by decide⟩ ∧ 1 < ([1, 2] : List Int).length) ∧
    ((-1 : Int) < 0 ∧ (-1 : Int) ∈ ([-1] : List Int)) ∧ (65535 < (65536 : Int) ∧ (Snapshot.mk none none (some 65536)).pc = some 65536) := by
  refine ⟨⟨_, rfl⟩, rfl, fun d h => ?_, by decide⟩
  cases h
  decide
theorem test_witness_SaveThenRestoreGivesTheState : (mkWait [] [20, 32768]).Inv := by decide
theorem test_witness_EndedRunsAreObserved : (observe (w0.setRunState .halted)).isSome = true ∧
    after (step (mk [22])) (fun t => decide t.Inv && t.runState == .faulted && (observe t).isSome) = true := by decide
theorem test_witness_HostActsOnAWaitingMachine : (mkWait [.save] [20, 0]).runState = .waitIn ∧
    (mkWait [.save] [20, 0]).hostQueue = .save :: [] ∧ (mkWait [.usageHint] [20, 0]).hostQueue = .usageHint :: [] ∧
    ((mkWait [.patch 0 1 1 2] [20, 0]).hostQueue = .patch 0 1 1 2 :: [] ∧
      (0 : Word).toNat < (mkWait [] [20, 0]).memLimit.toNat ∧ (1 : Word).toNat < (mkWait [] [20, 0]).memLimit.toNat) ∧
    ((mkWait [.patch 0 1 2 2] [20, 0]).hostQueue = .patch 0 1 2 2 :: [] ∧
      (mkWait [] [20, 0]).memLimit.toNat ≤ (2 : Word).toNat) := by decide
theorem test_witness_HostActsOnAWaitingMachine_steps :
    after (step (mkWait [.patch 0 1 1 2, .save] [20, 0])) (fun t => t.runState == .running && t.hostQueue == [.save]) = true ∧
    (mk [20, 0]).runState ≠ .waitIn := by decide
theorem test_witness_LoadAndRestoreComeBeforeARun : (∃ t, loadImage [0, 0] none [] = .ok t) ∧
    (∃ t, restoreImage [0, 0] ⟨some [0, 0, 0, 0, 0, 0, 0, 65535], some [65535, 0], some 65535⟩ none [] = .ok t) ∧
    (w0.stackDepth = none ∧ w0.hostQueue = []) ∧ w0.runState = .running ∧ (mkWait [] [20, 0]).runState = .waitIn ∧
    (w0.setRunState .halted).runState = .halted ∧ (w0.setRunState .faulted).runState = .faulted :=
  ⟨⟨_, rfl⟩, ⟨_, rfl⟩, ⟨rfl, rfl⟩, rfl, rfl, rfl, rfl⟩

theorem test_witness_FaultsArePrecise : after (step (mk [22])) (fun t => t.runState == .faulted) = true ∧
    after (step (mkWait [.respond .closed] [20, 0])) (fun t => t.runState == .faulted) = true := by decide
theorem test_witness_OnlyFaultsWriteTheRecord : after (step (mk [21])) (fun t => t.runState != .faulted) = true := by decide
theorem test_witness_GracefulEndInExactlyThreeCases : after (step (mk [0])) (fun t => t.runState == .halted) = true ∧
    after (step (mk [18])) (fun t => t.runState == .halted) = true ∧
    after (step (mkWait [.respond .terminate] [20, 0])) (fun t => t.runState == .halted) = true := by decide
theorem test_witness_OnlyInComesToWait : (mk [20, 0]).runState = .running ∧
    after (step (mk [20, 0])) (fun t => t.runState == .waitIn) = true := by decide
theorem test_witness_FaultsComeFromTheirInstructions : w0.runState = .running ∧
    after (exec (.pop 0) w0) (hasFault 3 0 0 0) = true ∧ after (exec (.mod 0 1 0) w0) (hasFault 5 0 0 0) = true ∧
    after (exec (.push 1) { w0 with stack := [7], stackDepth := depth1 }) (hasFault 6 0 0 0) = true ∧
    after (exec (.jmp 32776) w0) (hasFault 2 0 1 32776) = true ∧ after (exec (.rmem 0 4) w0) (hasFault 4 0 4 0) = true := by
  decide
theorem test_witness_InstructionsWriteOneRegisterOrCell : after (exec (.set 32775 1) w0) (fun t => t.reg 7 == 1) = true ∧
    after (exec (.wmem 0 7) w0) (fun t => t.cell 0 == 7) = true ∧ writeAddress (.wmem 0 7) w0 ≠ some 3 ∧
    writeAddress (.set 32775 1) w0 = some 1 ∧ IsTag (w0.cell 1) := by decide
theorem test_witness_InstructionsLeaveTheRestAlone : after (exec (.set 0 1) w0) (fun t => t.runState != .faulted) = true ∧
    usesStack (.set 0 1) = false ∧ ∀ a, Instr.set 0 1 ≠ .out a :=
  ⟨by decide, rfl, fun _ h => by cases h⟩
theorem test_witness_StepKeepsValuesInRange : (mkRegs 32767 1 [9, 32768, 32768, 32769]).Inv ∧
    (∀ i : RegIx, ((mkRegs 32767 1 [9, 32768, 32768, 32769]).reg i).toNat ≤ 32767) ∧
    (mkRegs 32767 1 [9, 32768, 32768, 32769]).stack = [] ∧ (mkRegs 32767 1 [9, 32768, 32768, 32769]).hostQueue = [] ∧
    after (step (mkRegs 32767 1 [9, 32768, 32768, 32769])) (fun t => t.reg 0 == 0) = true := by decide
theorem test_witness_CallThenRetReturns : valueOf w0 10 = some 10 ∧ StackHasRoom w0 ∧
    exec (.call 10) w0 = .next { w0 with stack := [2], pc := 10 } :=
  ⟨by decide, (fun _ h => by cases h), rfl⟩
theorem test_witness_StoreIntoCodeIsFetchedNext : (mk [16, 3, 99, 0]).Inv ∧ (mk [16, 3, 99, 0]).runState = .running ∧
    fetchInstr (mk [16, 3, 99, 0]) = .ok (.wmem 3 99) ∧ valueOf (mk [16, 3, 99, 0]) 3 = some ((mk [16, 3, 99, 0]).pc + 3) ∧
    valueOf (mk [16, 3, 99, 0]) 99 = some 99 ∧ SlotThere (mk [16, 3, 99, 0]) 3 ∧
    ¬ IsTag ((mk [16, 3, 99, 0]).cell ((mk [16, 3, 99, 0]).pc.toNat + 3)) ∧ 21 < (99 : Word).toNat :=
  ⟨by decide, rfl, rfl, by decide, by decide, by decide, by decide, by decide⟩
theorem test_witness_FetchedInstructionLiesInMemory : (mk [21]).Inv ∧ fetchInstr (mk [21]) = .ok .noop := ⟨by decide, rfl⟩
theorem test_witness_LoadMeetsTheInvariant : (∃ t, loadImage [1, 128, 3, 0] none [] = .ok t) ∧
    ∃ t, restoreImage [1, 128, 3, 0] ⟨some [0, 0, 0, 0, 0, 0, 0, 1], some [7], some 2⟩ depth1 [] = .ok t :=
  ⟨⟨_, rfl⟩, ⟨_, rfl⟩⟩
/-- An image is loaded, a HALT runs, and a second image replaces the finished run. -/
theorem test_witness_EveryReachedSessionMeetsTheInvariant :
    ∃ x y z : Session, (Session.empty none []).load [0, 0] = .ok x ∧ x.step = some y ∧ y.load [21, 0] = .ok z ∧
      x.Reached ∧ y.Reached ∧ z.Reached :=
  have hx := Session.Reached.load (y := .loaded _) [0, 0] (.empty none []) rfl
  have hy := Session.Reached.step (y := .run _) hx rfl
  ⟨_, _, _, rfl, rfl, rfl, hx, hy, .load [21, 0] hy rfl⟩
theorem test_witness_EveryStepKeepsTheInvariant : State.reset.Inv ∧ (mk [20, 0]).Inv ∧
    after (step (mk [20, 0])) (fun t => decide t.Inv && t.runState == .waitIn) = true := by decide

end Sys2Proof.Tests
end

section
/-! How far a fetched instruction reaches (10_state.md R34; 40_engine.md R123). -/

namespace Sys2Proof.Machine

/-- Every slot of a fetched instruction, from the opcode's to the last operand's, lies below N. -/
theorem fetchInstr_slot_lt {s : State} {i : Instr} {k : Nat} (h : fetchInstr s = .ok i) (hk : k ≤ i.operands.length) :
    s.slot k < s.memLimit.toNat :=
  have hk' : k < (encode i).length := Nat.lt_succ_of_le hk
  (fetchInstr_ok h k _ (List.getElem?_eq_getElem hk')).1

/-- Settles O54: the last word lies below N, and N is itself a 16-bit word, so the addresses do not wrap. -/
theorem fetchedInstructionLiesInMemory : Obligations.FetchedInstructionLiesInMemory := by
  intro s i _ hf
  have hend : s.pc.toNat + (encode i).length ≤ s.memLimit.toNat := fetchInstr_slot_lt hf le_rfl
  refine ⟨hend, ?_, fun k w hk => (fetchInstr_ok hf k w hk).2⟩
  have hN := s.memLimit.isLt
  rw [BitVec.toNat_add, BitVec.toNat_ofNat]
  omega

end Sys2Proof.Machine
end

section
/-! The fault records that a step can write fit their kinds (10_state.md R41; 60_exceptions.md R260). -/

namespace Sys2Proof.Machine

@[simp] theorem kindOfCode_code (k : FaultKind) : kindOfCode k.code = some k := by
  cases k <;> rfl

/-- An opcode word without an arity is above 21 (R101). -/
theorem gt_of_arityOf_eq_none {op : Word} (h : arityOf op = none) : 21 < op.toNat := by
  by_contra hle
  have hop : op.toNat ≤ 21 := by omega
  unfold arityOf at h
  interval_cases op.toNat <;> cases h

theorem recordFits_invalidOpcode {s : State} {w : Word} (hw : 21 < w.toNat) (hpc : s.pc.toNat < s.memLimit.toNat) :
    (s.enterFault ⟨.invalidOpcode, s.pc.toNat, w⟩).recordFits = true := by
  simp [State.recordFits, hw, hpc]

theorem recordFits_invalidOperand {s : State} {a : Nat} {w : Word} (hw : 32775 < w.toNat) (ha : a < s.memLimit.toNat) :
    (s.enterFault ⟨.invalidOperand, a, w⟩).recordFits = true := by
  have ha' : a < 65536 := ha.trans s.memLimit.isLt
  simp [State.recordFits, hw, Nat.mod_eq_of_lt ha', ha]

theorem recordFits_memRange {s : State} {a : Nat} (ha : s.memLimit.toNat ≤ a) (ha' : a < 65536) :
    (s.enterFault ⟨.memRange, a, 0⟩).recordFits = true := by
  simp [State.recordFits, Nat.mod_eq_of_lt ha', ha]

/-- A kind that sets neither fault_addr nor fault_value records 0 in both. -/
theorem recordFits_of_not_setsAddr {s : State} {k : FaultKind} (hk : k.setsAddr = false) :
    (s.enterFault ⟨k, 0, 0⟩).recordFits = true := by
  cases k
  case invalidOpcode | invalidOperand | memRange => cases hk
  case stackEmpty | divZero | stackOverflow | inputClosed => simp [State.recordFits]

/-- A fault of the fetch: an address at or above N is at most one past it, so it is recorded whole. -/
theorem recordFits_of_fetchInstr_error {s : State} {f : FaultInfo} (hN : s.memLimit.toNat ≤ 32768)
    (h : fetchInstr s = .error f) : (s.enterFault f).recordFits = true := by
  rcases fetchInstr_error h with ⟨hpc, rfl⟩ | ⟨hpc, ha, rfl⟩ | ⟨hpc, n, k, -, -, hle, hlow, rfl⟩
  · exact recordFits_memRange hpc s.pc.isLt
  · exact recordFits_invalidOpcode (gt_of_arityOf_eq_none ha) hpc
  · refine recordFits_memRange hle ?_
    simp only [State.slot] at hlow ⊢
    cases k with
    | zero => omega
    | succ k =>
      have := hlow k (Nat.lt_succ_self k)
      omega

/-- A fault of a fetched instruction's own: its slots lie below N, so every address it can concern is recorded whole. -/
theorem recordFits_of_faultOf {i : Instr} {s : State} {f : FaultInfo} (hN : s.memLimit.toNat ≤ 32768)
    (hi : fetchInstr s = .ok i) (h : FaultOf i s f) : (s.enterFault f).recordFits = true := by
  rcases h with ⟨w, -, k, -, hk, hw, rfl⟩ | ⟨a, -, ha, ha', rfl⟩ | ⟨a, _, _, -, ha, hw, rfl⟩ | ⟨hle, rfl⟩ |
    ⟨_, -, rfl⟩ | ⟨_, _, _, -, rfl⟩ | ⟨_, -, rfl⟩
  · exact recordFits_invalidOperand hw (fetchInstr_slot_lt hi hk)
  · exact recordFits_memRange ha ha'
  · exact recordFits_invalidOperand hw ha
  · have hpc : s.slot 0 < s.memLimit.toNat := fetchInstr_slot_lt hi (Nat.zero_le _)
    simp only [State.slot] at hpc hle ⊢
    exact recordFits_memRange hle (by omega)
  · exact recordFits_of_not_setsAddr rfl
  · exact recordFits_of_not_setsAddr rfl
  · exact recordFits_of_not_setsAddr rfl

end Sys2Proof.Machine
end

section
/-! Which updates of the state keep the invariant, and that every step does (O57). -/

namespace Sys2Proof.Machine

variable {s t : State}

theorem State.Inv.mem_wf (h : s.Inv) : s.mem.wf := h.1

theorem State.Inv.memLimit_le (h : s.Inv) : s.memLimit.toNat ≤ 32768 := h.2.2.1

theorem State.Inv.stackFits (h : s.Inv) : s.StackFits := h.2.2.2.1

theorem State.Inv.slot_one_lt (h : s.Inv) (hr : s.runState = .waitIn) : s.slot 1 < s.memLimit.toNat :=
  h.2.2.2.2.2.2 hr

theorem State.Inv.setReg (h : s.Inv) (i : RegIx) (v : Word) : (s.setReg i v).Inv := h

theorem State.Inv.emit (h : s.Inv) (v : Word) : (s.emit v).Inv := h

theorem State.Inv.setQueue (h : s.Inv) (q : List HostAction) : (s.setQueue q).Inv := h

theorem State.Inv.setStack (h : s.Inv) {st : List Word} (hst : fitsDepth s.stackDepth st.length = true) :
    (s.setStack st).Inv := by
  obtain ⟨hwf, hin, hN, -, hrest⟩ := h
  exact ⟨hwf, hin, hN, hst, hrest⟩

theorem State.Inv.setCell (h : s.Inv) {a : Nat} (v : Word) (ha : a < s.memLimit.toNat) : (s.setCell a v).Inv := by
  obtain ⟨hwf, hin, hrest⟩ := h
  refine ⟨Memory.wf_setWord hwf, fun c hc => ?_, hrest⟩
  rw [State.setCell_memLimit]
  rcases Memory.mem_setWord hc with hk | hk | hm
  · omega
  · omega
  · exact hin c hm

/-- The pc may move while the machine is RUNNING: then it is part of no fault record and of no waiting IN. -/
theorem State.Inv.setPc (h : s.Inv) (hr : s.runState = .running) (p : Word) : (s.setPc p).Inv := by
  obtain ⟨hwf, hin, hN, hst, hclear, -, -⟩ := h
  exact ⟨hwf, hin, hN, hst, hclear, by simp [hr], by simp [hr]⟩

theorem State.Inv.setRunState (h : s.Inv) (hs : s.runState ≠ .faulted) {r : RunState} (hr : r ≠ .faulted)
    (hwait : r = .waitIn → s.slot 1 < s.memLimit.toNat) : (s.setRunState r).Inv := by
  obtain ⟨hwf, hin, hN, hst, hclear, -, -⟩ := h
  exact ⟨hwf, hin, hN, hst, fun _ => hclear hs, fun hf => absurd hf hr, hwait⟩

theorem State.Inv.enterFault (h : s.Inv) {f : FaultInfo} (hf : (s.enterFault f).recordFits = true) :
    (s.enterFault f).Inv := by
  obtain ⟨hwf, hin, hN, hst, -, -, -⟩ := h
  exact ⟨hwf, hin, hN, hst, by simp, fun _ => hf, by simp⟩

theorem State.Inv.writeThrough (h : s.Inv) {v : Word} {a : Nat} (hw : writeThrough s v a = .ok t) : t.Inv := by
  obtain ⟨ha, ⟨i, -, rfl⟩ | ⟨-, rfl⟩⟩ := writeThrough_cases hw
  · exact h.setReg i v
  · exact h.setCell v ha

/-- A write-through touches registers and memory alone. -/
theorem writeThrough_frame {v : Word} {a : Nat} (hw : writeThrough s v a = .ok t) :
    ∃ regs mem, t = { s with regs := regs, mem := mem } := by
  obtain ⟨-, ⟨i, -, rfl⟩ | ⟨-, rfl⟩⟩ := writeThrough_cases hw
  · exact ⟨_, s.mem, rfl⟩
  · exact ⟨s.regs, _, rfl⟩

theorem writeThrough_runState {v : Word} {a : Nat} (hw : writeThrough s v a = .ok t) : t.runState = s.runState := by
  obtain ⟨_, _, rfl⟩ := writeThrough_frame hw
  rfl

/-- With room for one more, the longer stack still fits (R36). -/
theorem fitsDepth_cons_of_not_full (h : s.stackFull = false) (v : Word) :
    fitsDepth s.stackDepth (v :: s.stack).length = true := by
  cases hd : s.stackDepth with
  | none => rfl
  | some d => simpa [fitsDepth] using stackFull_eq_false.1 h d hd

/-- The stack without its top entry fits where the whole stack does. -/
theorem State.StackFits.tail {v : Word} {st : List Word} (h : s.StackFits) (hs : s.stack = v :: st) :
    fitsDepth s.stackDepth st.length = true := by
  unfold State.StackFits at h
  rw [hs, List.length_cons] at h
  cases hd : s.stackDepth with
  | none => rfl
  | some d =>
    simp only [hd, fitsDepth, decide_eq_true_eq] at h ⊢
    omega

/-- Executing the instruction that was fetched keeps the invariant. -/
theorem State.Inv.exec {i : Instr} (h : s.Inv) (hr : s.runState = .running) (hi : fetchInstr s = .ok i)
    (he : exec i s = .next t) : t.Inv := by
  have hrun : s.runState ≠ .faulted := by simp [hr]
  rcases exec_cases he with ⟨f, rfl, hf⟩ | ⟨u, v, a, w, p, hu, -, hw, rfl, -⟩ | ⟨p, rfl, -⟩ |
    ⟨_, v, p, -, hroom, rfl, -⟩ | ⟨v, st, -, hst, rfl⟩ | ⟨_, v, p, -, rfl⟩ | ⟨-, rfl⟩ | ⟨-, -, rfl⟩ | ⟨x, rfl, rfl⟩
  · exact h.enterFault (recordFits_of_faultOf h.memLimit_le hi hf)
  · have hu' : u.Inv ∧ u.runState = .running := by
      rcases hu with rfl | ⟨_, st, -, hst, rfl⟩
      · exact ⟨h, hr⟩
      · exact ⟨h.setStack (h.stackFits.tail hst), hr⟩
    exact (hu'.1.writeThrough hw).setPc (by rw [writeThrough_runState hw, hu'.2]) p
  · exact h.setPc hr p
  · exact (h.setStack (fitsDepth_cons_of_not_full hroom v)).setPc hr p
  · exact (h.setStack (h.stackFits.tail hst)).setPc hr v
  · exact (h.emit v).setPc hr p
  · exact h.setRunState hrun (by simp) (by simp)
  · exact h.setRunState hrun (by simp) (by simp)
  · exact h.setRunState hrun (by simp) fun _ => fetchInstr_slot_lt hi le_rfl

/-- The host's character keeps the invariant: the waiting IN has its operand slot, so the write cannot fault. -/
theorem State.Inv.completeChar {v : Word} (h : s.Inv) (hr : s.runState = .waitIn) (hc : completeChar v s = .next t) :
    t.Inv := by
  rcases completeChar_cases hc with ⟨e, -, he⟩ | ⟨u, hu, rfl⟩
  · exact absurd (h.slot_one_lt hr) (not_lt.2 (writeThrough_error_iff.1 he).1)
  · have hrun : u.runState ≠ .faulted := by simp [writeThrough_runState hu, hr]
    exact ((h.writeThrough hu).setRunState hrun (by simp) (by simp)).setPc rfl _

/-- Whatever the host does to a waiting machine keeps the invariant. -/
theorem State.Inv.hostAct {a : HostAction} (h : s.Inv) (hr : s.runState = .waitIn) (ha : hostAct a s = .next t) :
    t.Inv := by
  have hrun : s.runState ≠ .faulted := by simp [hr]
  rcases hostAct_cases ha with ⟨v, -, hc⟩ | ⟨-, rfl⟩ | ⟨-, rfl⟩ | ⟨-, rfl⟩ | ⟨-, rfl⟩ |
    ⟨a0, v0, a1, v1, -, h0, h1, rfl⟩
  · exact h.completeChar hr hc
  · exact h.setRunState hrun (by simp) (by simp)
  · exact h.setRunState hrun (by simp) (by simp)
  · exact h.enterFault (recordFits_of_not_setsAddr rfl)
  · exact h.setRunState hrun (by simp) (by simp)
  · exact ((h.setCell v0 h0).setCell v1 h1).setRunState hrun (by simp) (by simp)

/-- Settles O57, by the three things a step can do. -/
theorem everyStepKeepsTheInvariant : Obligations.EveryStepKeepsTheInvariant := by
  intro s t h hstep
  rcases step_cases hstep with ⟨hr, i, hi, he⟩ | ⟨hr, f, hf, rfl⟩ | ⟨hr, a, q, -, ha⟩
  · exact h.exec hr hi he
  · exact h.enterFault (recordFits_of_fetchInstr_error h.memLimit_le hf)
  · exact (h.setQueue q).hostAct hr ha

end Sys2Proof.Machine
end

section
/-! What an instruction changes of the registers and of memory (O49), and of everything else (O50): 10_state.md R31, R35,
R44; 20_memory.md R64, R73; 40_engine.md R131. -/

namespace Sys2Proof.Machine

open Sys2Proof.Claims

/-- What Resolve answers is the value that R97's ranges give. -/
theorem valueOf_of_resolve_ok {s : State} {w v : Word} {addr : Nat} (h : resolve s w addr = .ok v) :
    valueOf s w = some v := by
  rcases resolve_ok_cases h with ⟨hw, rfl⟩ | ⟨i, hw, rfl⟩
  · exact if_pos hw
  · have hi : w.toNat - 32768 = i.toNat := by omega
    rw [valueOf, if_neg (by omega), hi]
    exact Vector.getElem?_eq_getElem i.isLt

/-- The address an instruction wrote through is the one the claims name. -/
theorem writeAddress_of_writesAt {i : Instr} {s : State} {a : Nat} (h : WritesAt i s a) : writeAddress i s = some a := by
  cases i
  case halt | push | jmp | jt | jf | call | ret | out | inp | noop => exact h.elim
  case wmem x y =>
    obtain ⟨addr, hx, rfl⟩ := h
    simp [writeAddress, valueOf_of_resolve_ok hx]
  all_goals exact congrArg some (Eq.symm h)

/-- The registers and memory of `t` are those of `s` after at most one write: none, the register that the tag at address
`a` names, or the cell at `a`, where no tag stands. -/
inductive WroteAtMost (i : Instr) (s t : State) : Prop where
  | nothing (hregs : t.regs = s.regs) (hmem : t.mem = s.mem)
  | register (a : Nat) (r : RegIx) (v : Word) (ha : writeAddress i s = some a)
      (htag : (s.cell a).toNat = 32768 + r.toNat) (hregs : t.regs = (s.setReg r v).regs) (hmem : t.mem = s.mem)
  | cell (a : Nat) (v : Word) (ha : writeAddress i s = some a)
      (htag : ¬ IsTag (s.cell a)) (hregs : t.regs = s.regs) (hmem : t.mem = s.mem.setWord a v)

theorem wroteAtMost_of_wrote {i : Instr} {s t : State} (h : Wrote i s t) : WroteAtMost i s t := by
  obtain ⟨u, v, a, w, p, hu, ha, hw, rfl, -⟩ := h
  have ha' := writeAddress_of_writesAt ha
  have hus : u.regs = s.regs ∧ u.mem = s.mem := by
    rcases hu with rfl | ⟨_, _, -, -, rfl⟩ <;> exact ⟨rfl, rfl⟩
  obtain ⟨hregs, hmem⟩ := hus
  have hcell : u.cell a = s.cell a := congrArg (Memory.word · a) hmem
  obtain ⟨-, hreg | hcellw⟩ := writeThrough_cases hw
  · obtain ⟨r, htag, rfl⟩ := hreg
    exact .register a r v ha' (hcell ▸ htag) (by simp [hregs]) hmem
  · obtain ⟨htag, rfl⟩ := hcellw
    rw [hcell] at htag
    exact .cell a v ha' (by omega) hregs (by simp [hmem])

/-- Every instruction writes at most one register or one cell, through its write address. -/
theorem exec_wroteAtMost {i : Instr} {s t : State} (h : exec i s = .next t) : WroteAtMost i s t := by
  rcases exec_cases h with ⟨_, rfl, -⟩ | hw | ⟨_, rfl, -⟩ | ⟨_, _, _, -, -, rfl, -⟩ | ⟨_, _, -, -, rfl⟩ |
    ⟨_, _, _, -, rfl⟩ | ⟨-, rfl⟩ | ⟨-, -, rfl⟩ | ⟨_, -, rfl⟩
  case inr.inl => exact wroteAtMost_of_wrote hw
  all_goals exact .nothing rfl rfl

theorem Memory.byteAt_setWord_of_ne (m : Memory) {a k : Nat} (w : Word) (hlow : k ≠ 2 * a) (hhigh : k ≠ 2 * a + 1) :
    (m.setWord a w).byteAt k = m.byteAt k := by
  rw [Memory.setWord, Memory.byteAt_setByte_of_ne _ _ hhigh.symm, Memory.byteAt_setByte_of_ne _ _ hlow.symm]

theorem State.reg_of_regs_eq {s t : State} (h : t.regs = s.regs) (r : RegIx) : t.reg r = s.reg r := by
  simp only [State.reg, h]

theorem State.cell_of_mem_eq {s t : State} (h : t.mem = s.mem) (a : Nat) : t.cell a = s.cell a := by
  simp only [State.cell, h]

/-- Settles O49, by the three things an instruction can do to the registers and memory. -/
theorem instructionsWriteOneRegisterOrCell : Obligations.InstructionsWriteOneRegisterOrCell := by
  intro i s t h
  cases exec_wroteAtMost h with
  | nothing hregs hmem =>
    exact ⟨fun r _ => State.reg_of_regs_eq hregs r, fun b _ => State.cell_of_mem_eq hmem b,
      fun k _ => by rw [hmem], fun _ => hmem, .inl hregs⟩
  | register a r v ha htag hregs hmem =>
    refine ⟨fun j hj => ?_, fun b _ => State.cell_of_mem_eq hmem b, fun k _ => by rw [hmem], fun _ => hmem, .inr hmem⟩
    have hne : r ≠ j := fun e => hj a ha (e ▸ htag)
    rw [State.reg_of_regs_eq hregs, State.setReg_reg, if_neg hne]
  | cell a v ha htag hregs hmem =>
    refine ⟨fun r _ => State.reg_of_regs_eq hregs r, fun b hb => ?_, fun k hk => ?_, fun hall => ?_, .inl hregs⟩
    · have hne : a ≠ b := fun e => hb (e ▸ ha)
      simpa only [State.cell, hmem] using Memory.word_setWord_of_ne s.mem v hne
    · rw [hmem, Memory.byteAt_setWord_of_ne _ _ (hk a ha).1 (hk a ha).2]
    · exact absurd (hall a ha) htag

/-- Settles O50, by the cases of exec: a write-through touches registers and memory alone, and each other case names the one
field that it changes. -/
theorem instructionsLeaveTheRestAlone : Obligations.InstructionsLeaveTheRestAlone := by
  intro i s t h
  rcases exec_cases h with ⟨f, rfl, -⟩ | ⟨u, v, a, w, p, hu, -, hw, rfl, -⟩ | ⟨p, rfl, -⟩ |
    ⟨x, v, p, hi, -, rfl, -⟩ | ⟨v, st, rfl, -, rfl⟩ | ⟨x, v, p, rfl, rfl⟩ | ⟨-, rfl⟩ | ⟨-, -, rfl⟩ | ⟨x, -, rfl⟩
  · exact ⟨fun _ => rfl, fun _ => rfl, fun hf => absurd rfl hf, rfl, rfl, rfl⟩
  · obtain ⟨_, _, rfl⟩ := writeThrough_frame hw
    rcases hu with rfl | ⟨_, _, rfl, -, rfl⟩
    · simp
    · simp [usesStack]
  · simp
  · rcases hi with rfl | rfl <;> simp [usesStack]
  · simp [usesStack]
  · simp
  · simp
  · simp
  · simp

end Sys2Proof.Machine
end

section
/-! The range of the values one step writes (10_state.md R32; log entry 17). -/

namespace Sys2Proof.Machine

/-- What O51 says of a step from `s` to `t`. -/
structure WritesInRange (s t : State) : Prop where
  regs : ∀ i : RegIx, (t.reg i).toNat ≤ 32767
  stack : ∀ v ∈ t.stack, v.toNat ≤ 32768
  cells : ∀ a, t.cell a ≠ s.cell a → (t.cell a).toNat ≤ 32767

variable {s t : State}

/-- Only the stack is in question where registers and memory stay as they were. -/
theorem WritesInRange.of_frame (hregs : t.regs = s.regs) (hmem : t.mem = s.mem)
    (hr : ∀ i : RegIx, (s.reg i).toNat ≤ 32767) (hst : ∀ v ∈ t.stack, v.toNat ≤ 32768) : WritesInRange s t where
  regs i := by rw [State.reg_of_regs_eq hregs]; exact hr i
  stack := hst
  cells a ha := absurd (State.cell_of_mem_eq hmem a) ha

/-- One write of a value in range, to a register or to a cell. -/
theorem WritesInRange.of_writeThrough {v : Word} {a : Nat} (hwf : s.mem.wf)
    (hr : ∀ i : RegIx, (s.reg i).toNat ≤ 32767) (hst : ∀ x ∈ s.stack, x.toNat ≤ 32768) (hv : v.toNat ≤ 32767)
    (hw : writeThrough s v a = .ok t) : WritesInRange s t := by
  obtain ⟨-, ⟨i, -, rfl⟩ | ⟨-, rfl⟩⟩ := writeThrough_cases hw
  · refine ⟨fun j => ?_, hst, fun b hb => absurd rfl hb⟩
    rw [State.setReg_reg]
    split
    · exact hv
    · exact hr j
  · refine ⟨hr, hst, fun b hb => ?_⟩
    by_cases hab : a = b
    · rw [State.setCell_cell hwf, if_pos hab]
      exact hv
    · rw [State.setCell_cell hwf, if_neg hab] at hb
      exact absurd rfl hb

/-- Executing the instruction that was fetched. CALL alone can push 32768: it has an operand word below N, so it stands at
32766 at most. -/
theorem exec_writesInRange {i : Instr} (hs : s.Inv) (hr : ∀ r : RegIx, (s.reg r).toNat ≤ 32767)
    (hst : ∀ v ∈ s.stack, v.toNat ≤ 32767) (hi : fetchInstr s = .ok i) (he : exec i s = .next t) :
    WritesInRange s t := by
  have hN := hs.memLimit_le
  have hst' : ∀ v ∈ s.stack, v.toNat ≤ 32768 := fun v hv => (hst v hv).trans (by omega)
  rcases exec_cases he with ⟨f, rfl, -⟩ | ⟨u, v, a, w, p, hu, -, hw, rfl, hv⟩ | ⟨p, rfl, -⟩ |
    ⟨x, v, p, hpush, -, rfl, hv⟩ | ⟨v, st, -, hcons, rfl⟩ | ⟨_, v, p, -, rfl⟩ | ⟨-, rfl⟩ | ⟨-, -, rfl⟩ | ⟨_, -, rfl⟩
  · exact .of_frame rfl rfl hr hst'
  · have hwrite : WritesInRange u w := by
      rcases hu with rfl | ⟨_, st, -, hcons, rfl⟩
      · exact .of_writeThrough hs.mem_wf hr hst' (hv hr hst) hw
      · exact .of_writeThrough hs.mem_wf hr (fun x hx => hst' x (by simp [hcons, show x ∈ st from hx])) (hv hr hst) hw
    have hcell : ∀ b, u.cell b = s.cell b := by
      rcases hu with rfl | ⟨_, _, -, -, rfl⟩ <;> exact fun _ => rfl
    exact ⟨hwrite.regs, hwrite.stack, fun b hb => hwrite.cells b (hcell b ▸ hb)⟩
  · exact .of_frame rfl rfl hr hst'
  · have hslot : s.slot 1 < s.memLimit.toNat :=
      fetchInstr_slot_lt hi (by rcases hpush with rfl | rfl <;> exact le_rfl)
    have hpc : s.pc.toNat ≤ 32766 := by
      simp only [State.slot] at hslot
      omega
    exact .of_frame rfl rfl hr (List.forall_mem_cons.2 ⟨hv hr hpc, hst'⟩)
  · exact .of_frame rfl rfl hr fun x hx => hst' x (by simp [hcons, show x ∈ st from hx])
  · exact .of_frame rfl rfl hr hst'
  · exact .of_frame rfl rfl hr hst'
  · exact .of_frame rfl rfl hr hst'
  · exact .of_frame rfl rfl hr hst'

/-- An action of the host that is no patch and gives no code above 32767. -/
theorem hostAct_writesInRange {a : HostAction} (hwf : s.mem.wf) (hr : ∀ r : RegIx, (s.reg r).toNat ≤ 32767)
    (hst : ∀ v ∈ s.stack, v.toNat ≤ 32768) (hchar : ∀ v, a = .respond (.char v) → v.toNat ≤ 32767)
    (hpatch : ∀ a0 v0 a1 v1, a ≠ .patch a0 v0 a1 v1) (ha : hostAct a s = .next t) : WritesInRange s t := by
  rcases hostAct_cases ha with ⟨v, hv, hc⟩ | ⟨-, rfl⟩ | ⟨-, rfl⟩ | ⟨-, rfl⟩ | ⟨-, rfl⟩ |
    ⟨a0, v0, a1, v1, hp, -⟩
  · rcases completeChar_cases hc with ⟨e, rfl, -⟩ | ⟨u, hu, rfl⟩
    · exact .of_frame rfl rfl hr hst
    · have hwrite := WritesInRange.of_writeThrough hwf hr hst (hchar v hv) hu
      exact ⟨hwrite.regs, hwrite.stack, hwrite.cells⟩
  · exact .of_frame rfl rfl hr hst
  · exact .of_frame rfl rfl hr hst
  · exact .of_frame rfl rfl hr hst
  · exact .of_frame rfl rfl hr hst
  · exact absurd hp (hpatch a0 v0 a1 v1)

/-- Settles O51, by the three things a step can do. -/
theorem stepKeepsValuesInRange : Obligations.StepKeepsValuesInRange := by
  intro s t hs hr hst hchar hpatch hstep
  have hst' : ∀ v ∈ s.stack, v.toNat ≤ 32768 := fun v hv => (hst v hv).trans (by omega)
  suffices h : WritesInRange s t from ⟨h.regs, h.stack, h.cells⟩
  rcases step_cases hstep with ⟨-, i, hi, he⟩ | ⟨-, f, -, rfl⟩ | ⟨-, a, q, hq, ha⟩
  · exact exec_writesInRange hs hr hst hi he
  · exact .of_frame rfl rfl hr hst'
  · have hmem : a ∈ s.hostQueue := by simp [hq]
    have h : WritesInRange (s.setQueue q) t :=
      hostAct_writesInRange hs.mem_wf hr hst' (fun v hv => hchar v (hv ▸ hmem))
        (fun a0 v0 a1 v1 hp => hpatch a0 v0 a1 v1 (hp ▸ hmem)) ha
    exact ⟨h.regs, h.stack, h.cells⟩

end Sys2Proof.Machine
end

section
/-! The stack (10_state.md R36, R37) and the state after reset (R46). -/

namespace Sys2Proof.Machine

open Sys2Proof.Claims

/-- Push raises STACK_OVERFLOW when the stack holds STACK_DEPTH entries. -/
theorem push_of_full {s : State} (v : Word) (h : StackIsFull s) : push s v = .error ⟨.stackOverflow, 0, 0⟩ :=
  if_pos (stackFull_eq_true.2 h)

/-- Push puts the value on top when there is room. -/
theorem push_of_room {s : State} (v : Word) (h : StackHasRoom s) : push s v = .ok (s.setStack (v :: s.stack)) :=
  if_neg (by simp [stackFull_eq_false.2 h])

/-- Settles O36: Pop on what Push leaves takes off the entry that Push put on. -/
theorem stackIsLastInFirstOut : Obligations.StackIsLastInFirstOut := by
  intro s v
  refine ⟨push_of_full v, fun h => ⟨_, push_of_room v h, pop_of_cons rfl⟩, fun hnone d hd => ?_, fun hpop => ?_, pop_of_nil⟩
  · simp [hnone] at hd
  · cases hs : s.stack with
    | nil => rfl
    | cons w st => simp [pop_of_cons hs] at hpop

@[simp] theorem State.reset_reg (i : RegIx) : State.reset.reg i = 0 := Vector.getElem_replicate i.isLt

/-- Settles O37: each value is the one State.reset writes down. -/
theorem resetLeavesTheSpecValues : Obligations.ResetLeavesTheSpecValues :=
  ⟨State.reset_reg, rfl, rfl, rfl, rfl, rfl, rfl, rfl, rfl, rfl⟩

/-- Settles O55: reset lists no byte and no stack entry, has a clear fault record, and is neither FAULTED nor waiting. -/
theorem resetMeetsTheInvariant : Obligations.ResetMeetsTheInvariant := by
  obtain ⟨-, -, -, -, -, hrun, hclear⟩ := resetLeavesTheSpecValues
  refine ⟨Memory.wf_nil, fun c hc => absurd hc List.not_mem_nil, Nat.zero_le _, rfl, fun _ => hclear, ?_, ?_⟩
  · simp [hrun]
  · simp [hrun]

end Sys2Proof.Machine
end

section
/-! A cell read after a cell was written (20_memory.md R61, R62, R70). -/

namespace Sys2Proof.Machine

variable {s : State} {a b : Nat}

theorem memRead_setCell_same (h : s.mem.wf) (v : Word) (ha : a < s.memLimit.toNat) :
    memRead (s.setCell a v) a = .ok v :=
  memRead_ok_iff.2 ⟨ha, by rw [State.setCell_cell h, if_pos rfl]⟩

theorem memRead_setCell_of_ne (s : State) (v : Word) (hab : a ≠ b) : memRead (s.setCell a v) b = memRead s b := by
  have hcell : (s.setCell a v).cell b = s.cell b := Memory.word_setWord_of_ne s.mem v hab
  simp only [memRead, State.setCell_memLimit, hcell]

/-- Settles O33: below N MemWrite is setCell, which touches one cell of a canonical memory and no other field. -/
theorem memoryAccessIsRangeChecked : Obligations.MemoryAccessIsRangeChecked := by
  intro s a v hs
  refine ⟨fun hN => ⟨memRead_of_le hN, memWrite_of_le v hN⟩, fun hN => ⟨memRead_of_lt hN, s.setCell a v, ?_⟩⟩
  exact ⟨memWrite_of_lt v hN, memRead_setCell_same hs.mem_wf v hN, fun b hb => memRead_setCell_of_ne s v hb.symm, rfl⟩

end Sys2Proof.Machine
end

section
/-! WriteThrough and the resolver in the words of the claims (20_memory.md R64, R65; 30_encoding.md R97). -/

namespace Sys2Proof.Machine

open Sys2Proof.Claims

variable {s : State} {slot : Nat}

theorem delivered_of_register {i : RegIx} (v : Word) (h : (s.cell slot).toNat = 32768 + i.toNat) :
    delivered s v slot = s.setReg i v := by
  have hi := i.isLt
  have htag : IsTag (s.cell slot) := by omega
  have hix : (s.cell slot).toNat - 32768 = i.toNat := by omega
  have hset : s.regs.setIfInBounds i.toNat v = s.regs.set i.toNat v i.isLt := by
    ext j hj
    rw [Vector.getElem_setIfInBounds, Vector.getElem_set]
  rw [delivered, if_pos htag, hix, hset, State.setReg]

theorem delivered_of_not_isTag (v : Word) (h : ¬ IsTag (s.cell slot)) : delivered s v slot = s.setCell slot v :=
  if_neg h

/-- Inside memory WriteThrough answers the state the claims name (R64, R65). -/
theorem writeThrough_of_lt (v : Word) (h : slot < s.memLimit.toNat) :
    writeThrough s v slot = .ok (delivered s v slot) := by
  obtain ⟨t, ht⟩ := writeThrough_ok_of_lt v h
  obtain ⟨-, ⟨i, hi, rfl⟩ | ⟨hd, rfl⟩⟩ := writeThrough_cases ht
  · rw [ht, delivered_of_register v hi]
  · have htag : ¬ IsTag (s.cell slot) := by omega
    rw [ht, delivered_of_not_isTag v htag]

/-- Settles O34: `delivered` says what an answer is, and the two kinds of descriptor say what `delivered` is. -/
theorem writeThroughFollowsTheDescriptor : Obligations.WriteThroughFollowsTheDescriptor := by
  refine fun s v slot => ⟨fun hN => writeThrough_error_iff.2 ⟨hN, rfl⟩, writeThrough_of_lt v, fun i hN hi => ?_,
    fun hN htag => ?_⟩
  · rw [writeThrough_of_lt v hN, delivered_of_register v hi]
  · rw [writeThrough_of_lt v hN, delivered_of_not_isTag v htag]

theorem valueOf_of_gt {w : Word} (h : 32775 < w.toNat) : valueOf s w = none := by
  rw [valueOf, if_neg (by omega)]
  exact Vector.getElem?_eq_none (by omega)

/-- Resolve answers exactly the value that R97's ranges give, wherever the word stands. -/
theorem resolve_eq_ok_iff {w v : Word} {addr : Nat} : resolve s w addr = .ok v ↔ valueOf s w = some v := by
  refine ⟨valueOf_of_resolve_ok, fun h => ?_⟩
  cases hr : resolve s w addr with
  | ok x => rw [Option.some.inj ((valueOf_of_resolve_ok hr).symm.trans h)]
  | error f => simp [valueOf_of_gt (resolve_error_iff.1 hr).1] at h

end Sys2Proof.Machine
end

section
/-! A store into the next instruction (20_memory.md R76; 70_reset_and_hazards.md R311). -/

namespace Sys2Proof.Machine

open Sys2Proof.Claims

variable {s : State}

theorem step_of_fetchInstr_ok {i : Instr} (hr : s.runState = .running) (hi : fetchInstr s = .ok i) :
    step s = exec i s := by
  simp only [step, hr, hi]

theorem step_of_fetchInstr_error {f : FaultInfo} (hr : s.runState = .running) (hf : fetchInstr s = .error f) :
    step s = .next (s.enterFault f) := by
  simp only [step, hr, hf]

/-- Fetching an opcode word above 21 raises INVALID_OPCODE on it (R101). -/
theorem fetchInstr_of_gt (hpc : s.pc.toNat < s.memLimit.toNat) (hop : 21 < (s.cell s.pc.toNat).toNat) :
    fetchInstr s = .error ⟨.invalidOpcode, s.pc.toNat, s.cell s.pc.toNat⟩ := by
  simp only [fetchInstr, memRead_of_lt hpc, ok_bind, arityOf_eq_none hop]

/-- A RUNNING machine faults on an opcode word above 21, recording pc and the word (R261). -/
theorem step_of_opcode_gt {op : Word} (hr : s.runState = .running) (hpc : s.pc.toNat < s.memLimit.toNat)
    (hcell : s.cell s.pc.toNat = op) (hop : 21 < op.toNat) : step s = .next (faultedAt s 1 s.pc op) := by
  subst hcell
  rw [step_of_fetchInstr_error hr (fetchInstr_of_gt hpc hop), State.enterFault, BitVec.ofNat_toNat, BitVec.setWidth_eq]
  rfl

/-- WMEM without a fault: the value is delivered at the address, and the run goes on after the instruction (R231). -/
theorem exec_wmem_of_values {a b addr v : Word} (ha : valueOf s a = some addr) (hb : valueOf s b = some v)
    (hN : addr.toNat < s.memLimit.toNat) :
    exec (.wmem a b) s = .next ((delivered s v addr.toNat).setPc (s.pc + 3)) := by
  simp only [exec, execWmem, resolve_eq_ok_iff.2 ha, resolve_eq_ok_iff.2 hb, writeThrough_of_lt v hN, ok_bind]
  rfl

/-- Settles O53: the store leaves RUNNING and N as they were and the stored word at the new pc, which does not wrap; that
word is what the next step fetches. -/
theorem storeIntoCodeIsFetchedNext : Obligations.StoreIntoCodeIsFetchedNext := by
  intro s a b v hs hr hi ha hb hslot htag
  have hpc : (s.pc + 3).toNat = s.pc.toNat + 3 := by
    have := s.memLimit.isLt
    rw [BitVec.toNat_add]
    simp only [BitVec.reduceToNat]
    omega
  rw [← hpc] at htag
  have hN : (s.pc + 3).toNat < s.memLimit.toNat := hpc ▸ hslot
  have hstep := exec_wmem_of_values ha hb hN
  rw [delivered_of_not_isTag v htag] at hstep
  have hcell : (s.setCell (s.pc + 3).toNat v).cell (s.pc + 3).toNat = v := by rw [State.setCell_cell hs.mem_wf, if_pos rfl]
  refine ⟨(s.setCell (s.pc + 3).toNat v).setPc (s.pc + 3), ?_, rfl, memRead_ok_iff.2 ⟨hN, hcell⟩, ?_⟩
  · rw [step_of_fetchInstr_ok hr hi, hstep]
  · exact step_of_opcode_gt hr hN hcell

end Sys2Proof.Machine
end

section
/-! The round trip between instructions and their words and bytes (20_memory.md R67; 30_encoding.md R94, R104). -/

namespace Sys2Proof

/-- The opcode map R94 read back: an instruction's words decode to it, and what follows them is left over. -/
@[simp] theorem decode_encode_append (i : Instr) (rest : List Word) : decode (encode i ++ rest) = .ok (i, rest) := by
  cases i <;> rfl

/-- Bytes that begin with those of `ws` hold `ws`, and then what the bytes after them hold (R67). -/
theorem wordsOfBytes_bytesOfWords_append (ws : List Word) (bs : List Byte) :
    wordsOfBytes (bytesOfWords ws ++ bs) = ws ++ wordsOfBytes bs := by
  induction ws with
  | nil => rfl
  | cons w ws ih => simp only [bytesOfWords, List.cons_append, wordsOfBytes, Machine.wordOfBytes_low_high, ih]

theorem length_bytesOfWords (ws : List Word) : (bytesOfWords ws).length = 2 * ws.length := by
  induction ws with
  | nil => rfl
  | cons w ws ih => simp only [bytesOfWords, List.length_cons, ih, Nat.mul_succ]

/-- The bytes decode as the words do, and the length of the words says how many bytes to drop. -/
theorem decodeBytes_bytesOfWords_encode_append (i : Instr) (rest : List Byte) :
    decodeBytes (bytesOfWords (encode i) ++ rest) = .ok (i, rest) := by
  simp only [decodeBytes, wordsOfBytes_bytesOfWords_append, decode_encode_append]
  rw [← length_bytesOfWords, List.drop_left]

/-- Settles O1: the opcode map instruction by instruction, and the bytes of any words by induction on the words. -/
theorem decodeEncodeRoundTrip : Obligations.DecodeEncodeRoundTrip :=
  ⟨decode_encode_append, decodeBytes_bytesOfWords_encode_append⟩

theorem decode_cons_of_gt {op : Word} (h : 21 < op.toNat) (ws : List Word) :
    decode (op :: ws) = .error (.invalidOpcode op) :=
  decodeOp_of_gt h ws

/-- Settles O3: each of the first eight lists is an encoding and what follows it; the last two words are above 21. -/
theorem exampleWordsDecode : Obligations.ExampleWordsDecode :=
  ⟨decode_encode_append .halt [], decode_encode_append (.set 32768 3) [0],
    decode_encode_append (.eq 32768 32769 9) [], decode_encode_append (.jmp 10) [],
    decode_encode_append (.add 32768 32758 15) [], decode_encode_append (.rmem 32768 4) [7, 10],
    decode_encode_append .ret [], decode_encode_append (.inp 32768) [],
    decode_cons_of_gt (by decide) [], decode_cons_of_gt (by decide) []⟩

end Sys2Proof
end

section
/-! The arity of an opcode word, and the three answers of the decoder (30_encoding.md R92, R101, R103, R104). -/

namespace Sys2Proof

theorem arityOf_opcode (i : Instr) : arityOf i.opcode = some i.operands.length := by
  cases i <;> rfl

theorem length_operands_le (i : Instr) : i.operands.length ≤ 3 := by
  cases i <;> simp [Instr.operands]

theorem arityOf_eq_none_iff {op : Word} : arityOf op = none ↔ 21 < op.toNat :=
  ⟨Machine.gt_of_arityOf_eq_none, arityOf_eq_none⟩

/-- Settles O5: the arity of an opcode word is the number of its instruction's operand words. -/
theorem opcodeFixesTheLength : Obligations.OpcodeFixesTheLength :=
  ⟨fun i => ⟨i.operands.length, arityOf_opcode i, Nat.add_comm _ 1, length_operands_le i⟩, fun _ => arityOf_eq_none_iff⟩

theorem operand1_of_short {f : Word → Instr} : ∀ {ws : List Word}, ws.length < 1 → operand1 f ws = .error .truncated
  | [], _ => rfl

theorem operand2_of_short {f : Word → Word → Instr} :
    ∀ {ws : List Word}, ws.length < 2 → operand2 f ws = .error .truncated
  | [], _ | [_], _ => rfl

theorem operand3_of_short {f : Word → Word → Word → Instr} :
    ∀ {ws : List Word}, ws.length < 3 → operand3 f ws = .error .truncated
  | [], _ | [_], _ | [_, _], _ => rfl

/-- An opcode word with fewer words after it than its arity is truncated. -/
theorem decodeOp_of_short {op : Word} {n : Nat} {ws : List Word} (ha : arityOf op = some n) (hl : ws.length < n) :
    decodeOp op ws = .error .truncated := by
  unfold arityOf at ha
  split at ha <;> rename_i hop <;> cases ha <;> simp only [decodeOp, hop]
  case h_1 | h_19 | h_22 => exact absurd hl (Nat.not_lt_zero _)
  case h_3 | h_4 | h_7 | h_18 | h_20 | h_21 => exact operand1_of_short hl
  case h_2 | h_8 | h_9 | h_15 | h_16 | h_17 => exact operand2_of_short hl
  case h_5 | h_6 | h_10 | h_11 | h_12 | h_13 | h_14 => exact operand3_of_short hl

/-- An opcode word with at least as many words after it as its arity is an instruction's encoding and what follows it. -/
theorem exists_encode_append_of_arity {op : Word} {n : Nat} {ws : List Word} (ha : arityOf op = some n)
    (hl : n ≤ ws.length) : ∃ i rest, op :: ws = encode i ++ rest := by
  obtain ⟨i, -, hi⟩ := decodeOp_of_arity ha (List.length_take_of_le hl)
  exact ⟨i, ws.drop n, by rw [hi, List.cons_append, List.take_append_drop]⟩

/-- The three answers of the decoder: no opcode, a list that ends too early, and an encoding with what follows it. -/
theorem decode_cons_cases (op : Word) (ws : List Word) :
    (21 < op.toNat ∧ decode (op :: ws) = .error (.invalidOpcode op)) ∨
    (op.toNat ≤ 21 ∧ decode (op :: ws) = .error .truncated) ∨
    (op.toNat ≤ 21 ∧ ∃ i rest, op :: ws = encode i ++ rest) := by
  cases ha : arityOf op with
  | none => exact .inl ⟨arityOf_eq_none_iff.1 ha, decode_cons_of_gt (arityOf_eq_none_iff.1 ha) ws⟩
  | some n =>
    have hop : op.toNat ≤ 21 := not_lt.1 fun hgt => by simp [arityOf_eq_none hgt] at ha
    rcases Nat.lt_or_ge ws.length n with hl | hl
    · exact .inr (.inl ⟨hop, decodeOp_of_short ha hl⟩)
    · exact .inr (.inr ⟨hop, exists_encode_append_of_arity ha hl⟩)

/-- Settles O2: the decoder accepts nothing but encodings, and what it reads from one is that instruction. -/
theorem decodedWordsAreTheEncoding : Obligations.DecodedWordsAreTheEncoding := by
  intro ws rest i h
  cases ws with
  | nil => cases h
  | cons op ws =>
    rcases decode_cons_cases op ws with ⟨-, he⟩ | ⟨-, he⟩ | ⟨-, j, tail, he⟩ <;> rw [he] at h
    · cases h
    · cases h
    · rw [decode_encode_append] at h
      cases h
      exact he

theorem decode_eq_invalidOpcode_iff (op : Word) (ws : List Word) :
    decode (op :: ws) = .error (.invalidOpcode op) ↔ 21 < op.toNat := by
  rcases decode_cons_cases op ws with ⟨hop, he⟩ | ⟨hop, he⟩ | ⟨hop, i, rest, he⟩ <;> simp [he, hop]

/-- Settles O4: the decoder's three answers, and the step of a machine whose fetch meets no opcode. -/
theorem illegalOpcodeFaults : Obligations.IllegalOpcodeFaults :=
  ⟨decode_eq_invalidOpcode_iff, fun _ hr hpc hop => Machine.step_of_opcode_gt hr hpc rfl hop⟩

end Sys2Proof
end

section
/-! The resolver on the three value ranges (30_encoding.md R97, R98). -/

namespace Sys2Proof.Machine

theorem resolve_of_literal (s : State) {w : Word} (addr : Nat) (h : w.toNat < 32768) : resolve s w addr = .ok w := by
  simp only [resolve, classify_literal h]

theorem resolve_of_register (s : State) {w : Word} (addr : Nat) {i : RegIx} (h : w.toNat = 32768 + i.toNat) :
    resolve s w addr = .ok (s.reg i) := by
  simp only [resolve, classify_register h]

theorem decode_cons_of_gt {op : Word} (h : 21 < op.toNat) (ws : List Word) :
    decode (op :: ws) = .error (.invalidOpcode op) :=
  decodeOp_of_gt h ws

/-- Settles O35: each range of values is one form of operand, and each form is one arm of the resolver. -/
theorem resolverFollowsTheValueRanges : Obligations.ResolverFollowsTheValueRanges := fun s _ addr =>
  ⟨resolve_of_literal s addr, fun _ => resolve_of_register s addr, fun h => resolve_error_iff.2 ⟨h, rfl⟩⟩

end Sys2Proof.Machine
end

section
/-! One step of a RUNNING machine: the instruction at pc, or a fetch outside memory; and no step of an ended run
(40_engine.md R120 to R124, R132; 60_exceptions.md R264). -/

namespace Sys2Proof.Machine

open Sys2Proof.Claims

variable {s : State}

/-- A fetch answers an instruction exactly when its words stand in memory from pc on, all of them below N. -/
theorem fetchInstr_eq_ok_iff {i : Instr} : fetchInstr s = .ok i ↔
    ∀ k w, (encode i)[k]? = some w → s.slot k < s.memLimit.toNat ∧ s.cell (s.slot k) = w := by
  refine ⟨fetchInstr_ok, fun h => ?_⟩
  have hop : memRead s s.pc.toNat = .ok i.opcode := memRead_ok_iff.2 (h 0 i.opcode rfl)
  have hws : memReads s (s.slot 1) i.operands.length = .ok i.operands :=
    memReads_ok_iff.2 ⟨rfl, fun k w hk => by
      simpa only [State.slot, Nat.add_assoc, Nat.add_comm 1 k] using h (k + 1) w hk⟩
  have hdec : decode (i.opcode :: i.operands) = .ok (i, []) := by simpa [encode] using decode_encode_append i []
  simp only [fetchInstr, hop, ok_bind, arityOf_opcode, hws, hdec]

/-- Settles O6: the fetch answers the instruction whose words stand at pc. -/
theorem stepRunsDecodedInstruction : Obligations.StepRunsDecodedInstruction := fun _ _ hr hw =>
  step_of_fetchInstr_ok hr (fetchInstr_eq_ok_iff.2 hw)

theorem step_of_fetchInstr_memRange {a : Nat} (hr : s.runState = .running)
    (hf : fetchInstr s = .error ⟨.memRange, a, 0⟩) : step s = .next (faultedAt s 4 (BitVec.ofNat 16 a) 0) :=
  step_of_fetchInstr_error hr hf

/-- Settles O7: the fetch faults at pc, a 16-bit address, so it is recorded whole. -/
theorem opcodeFetchOutsideMemoryFaults : Obligations.OpcodeFetchOutsideMemoryFaults := by
  intro s hr hpc
  rw [step_of_fetchInstr_memRange hr (fetchInstr_outside hpc), BitVec.ofNat_toNat, BitVec.setWidth_eq]

/-- A fetch whose lowest slot at or above N is that of an operand raises MEM_RANGE there (R123, R129 item 3). -/
theorem fetchInstr_of_missing_operand {n k : Nat} (ha : arityOf (s.cell s.pc.toNat) = some n) (hk : 1 ≤ k) (hkn : k ≤ n)
    (hlow : ∀ j, j < k → s.slot j < s.memLimit.toNat) (hmiss : s.memLimit.toNat ≤ s.slot k) :
    fetchInstr s = .error ⟨.memRange, s.slot k, 0⟩ := by
  obtain ⟨k, rfl⟩ := Nat.exists_eq_add_of_le hk
  have hslot : ∀ j, s.slot (1 + j) = s.slot 1 + j := fun j => (Nat.add_assoc _ 1 j).symm
  have hws : memReads s (s.slot 1) n = .error ⟨.memRange, s.slot (1 + k), 0⟩ :=
    memReads_error_iff.2 ⟨k, by omega, hslot k ▸ hmiss, fun j hj => hslot j ▸ hlow (1 + j) (by omega), by rw [hslot]⟩
  have hop : memRead s s.pc.toNat = .ok (s.cell s.pc.toNat) := memRead_of_lt (hlow 0 hk)
  simp only [fetchInstr, hop, ok_bind, ha, hws, error_bind]

/-- Settles O8: the fetch faults at the first operand slot that is missing. -/
theorem operandFetchOutsideMemoryFaults : Obligations.OperandFetchOutsideMemoryFaults :=
  fun _ _ _ hr _ ha hk hkn hlow hmiss =>
    step_of_fetchInstr_memRange hr (fetchInstr_of_missing_operand ha hk hkn hlow (not_lt.1 hmiss))

/-- Settles O9: each of these run_states has its own arm of the step, and a waiting machine's looks at the host's list. -/
theorem noStepOfItsOwnWhenNotRunning : Obligations.NoStepOfItsOwnWhenNotRunning := fun _ =>
  ⟨fun hr => by simp only [step, hr], fun hr => by simp only [step, hr],
    fun hr hq => by simp only [step, hr, hostTurn, hq]⟩

end Sys2Proof.Machine
end

section
/-! What a step can do to run_state, and what it keeps (40_engine.md R120, R128, R131; 47_io.md R241). -/

namespace Sys2Proof.Machine

open Sys2Proof.Claims

variable {s t : State}

theorem FaultKind.code_ne_zero (k : FaultKind) : k.code ≠ 0 := by
  cases k <;> decide

/-- What an instruction can do to run_state: take a fault, leave it, end the run, or wait for the host. In the last two
nothing else changes. -/
theorem exec_runState_cases {i : Instr} (h : exec i s = .next t) :
    (∃ f, t = s.enterFault f) ∨ t.runState = s.runState ∨
    ((i = .halt ∨ i = .ret ∧ s.stack = []) ∧ t = s.setRunState .halted) ∨
    (∃ a, i = .inp a ∧ t = s.setRunState .waitIn) := by
  rcases exec_cases h with ⟨f, rfl, -⟩ | ⟨u, v, a, w, p, hu, -, hw, rfl, -⟩ | ⟨p, rfl, -⟩ |
    ⟨_, v, p, -, -, rfl, -⟩ | ⟨v, st, -, -, rfl⟩ | ⟨_, v, p, -, rfl⟩ | ⟨hi, rfl⟩ | ⟨hi, hs, rfl⟩ | ⟨a, hi, rfl⟩
  · exact .inl ⟨f, rfl⟩
  · have hus : u.runState = s.runState := by rcases hu with rfl | ⟨_, _, -, -, rfl⟩ <;> rfl
    exact .inr (.inl ((writeThrough_runState hw).trans hus))
  · exact .inr (.inl rfl)
  · exact .inr (.inl rfl)
  · exact .inr (.inl rfl)
  · exact .inr (.inl rfl)
  · exact .inr (.inr (.inl ⟨.inl hi, rfl⟩))
  · exact .inr (.inr (.inl ⟨.inr ⟨hi, hs⟩, rfl⟩))
  · exact .inr (.inr (.inr ⟨a, hi, rfl⟩))

/-- An instruction that ends in FAULTED took a fault from the state before it, and did nothing else. -/
theorem exec_faulted {i : Instr} (hr : s.runState = .running) (h : exec i s = .next t) (ht : t.runState = .faulted) :
    ∃ f, t = s.enterFault f := by
  rcases exec_runState_cases h with hf | he | ⟨-, rfl⟩ | ⟨_, -, rfl⟩
  · exact hf
  · cases (hr.symm.trans he.symm).trans ht
  · cases ht
  · cases ht

/-- An action of the host takes a fault and does nothing else, or it leaves N, STACK_DEPTH and the fault record as they
were and the machine not FAULTED. -/
theorem hostAct_fault_or_keeps {a : HostAction} (h : hostAct a s = .next t) :
    (∃ f, t = s.enterFault f) ∨ (t.runState ≠ .faulted ∧ t.memLimit = s.memLimit ∧ t.stackDepth = s.stackDepth ∧
      t.faultCode = s.faultCode ∧ t.faultPc = s.faultPc ∧ t.faultAddr = s.faultAddr ∧ t.faultValue = s.faultValue) := by
  rcases hostAct_cases h with ⟨v, -, hc⟩ | ⟨-, rfl⟩ | ⟨-, rfl⟩ | ⟨-, rfl⟩ | ⟨-, rfl⟩ | ⟨_, _, _, _, -, -, -, rfl⟩
  · rcases completeChar_cases hc with ⟨f, rfl, -⟩ | ⟨u, hu, rfl⟩
    · exact .inl ⟨f, rfl⟩
    · obtain ⟨_, _, rfl⟩ := writeThrough_frame hu
      exact .inr (by simp)
  · exact .inr (by simp)
  · exact .inr (by simp)
  · exact .inl ⟨_, rfl⟩
  · exact .inr (by simp)
  · exact .inr (by simp)

/-- A step that ends in FAULTED took a fault and did nothing else, but that a waiting machine's took the host's action. -/
theorem step_faulted (h : step s = .next t) (ht : t.runState = .faulted) :
    (s.runState = .running ∧ ∃ f, t = s.enterFault f) ∨
    (s.runState = .waitIn ∧ ∃ a q f, s.hostQueue = a :: q ∧ t = (s.setQueue q).enterFault f) := by
  rcases step_cases h with ⟨hr, i, -, he⟩ | ⟨hr, f, -, hf⟩ | ⟨hr, a, q, hq, ha⟩
  · exact .inl ⟨hr, exec_faulted hr he ht⟩
  · exact .inl ⟨hr, f, hf⟩
  · rcases hostAct_fault_or_keeps ha with ⟨f, hf⟩ | ⟨hne, -⟩
    · exact .inr ⟨hr, a, q, f, hq, hf⟩
    · exact absurd ht hne

/-- Settles O44: a fault is entered from the state before the step, of which at most the host's action is gone. -/
theorem faultsArePrecise : Obligations.FaultsArePrecise := by
  intro s t h ht
  rcases step_faulted h ht with ⟨hr, f, rfl⟩ | ⟨hr, a, q, f, hq, rfl⟩
  · exact ⟨rfl, f.kind.code_ne_zero, rfl, fun _ => rfl, fun hw => by simp [hr] at hw⟩
  · exact ⟨rfl, f.kind.code_ne_zero, rfl, fun hw => by simp [hr] at hw, fun _ => ⟨a, hq⟩⟩

/-- Settles O45, by the three things a step can do: what an instruction leaves alone is O50. -/
theorem onlyFaultsWriteTheRecord : Obligations.OnlyFaultsWriteTheRecord := by
  intro s t h
  rcases step_cases h with ⟨-, i, -, he⟩ | ⟨-, f, -, rfl⟩ | ⟨-, a, q, -, ha⟩
  · obtain ⟨-, -, hrecord, hN, hdepth, -⟩ := instructionsLeaveTheRestAlone i s t he
    exact ⟨hN, hdepth, hrecord⟩
  · exact ⟨rfl, rfl, fun hf => absurd rfl hf⟩
  · rcases hostAct_fault_or_keeps ha with ⟨f, rfl⟩ | ⟨-, hN, hdepth, hrecord⟩
    · exact ⟨rfl, rfl, fun hf => absurd rfl hf⟩
    · exact ⟨hN, hdepth, fun _ => hrecord⟩

/-- An instruction of a RUNNING machine that comes to wait is an IN, and changes nothing but run_state. -/
theorem exec_waitIn {i : Instr} (hr : s.runState = .running) (h : exec i s = .next t) (ht : t.runState = .waitIn) :
    ∃ a, i = .inp a ∧ t = s.setRunState .waitIn := by
  rcases exec_runState_cases h with ⟨_, rfl⟩ | he | ⟨-, rfl⟩ | hin
  · cases ht
  · cases (hr.symm.trans he.symm).trans ht
  · cases ht
  · exact hin

theorem step_waitIn (hr : s.runState = .running) (h : step s = .next t) (ht : t.runState = .waitIn) :
    ∃ a, fetchInstr s = .ok (.inp a) ∧ t = s.setRunState .waitIn := by
  rcases step_cases h with ⟨-, i, hi, he⟩ | ⟨-, f, -, rfl⟩ | ⟨hw, -⟩
  · obtain ⟨a, rfl, rfl⟩ := exec_waitIn hr he ht
    exact ⟨a, hi, rfl⟩
  · cases ht
  · cases hr.symm.trans hw

/-- Settles O47: only an IN comes to wait, and an IN that is fetched does nothing else. -/
theorem onlyInComesToWait : Obligations.OnlyInComesToWait := by
  intro s t hr h
  refine ⟨⟨fun ht => ?_, fun ⟨a, hi⟩ => ?_⟩, fun ht => ?_⟩
  · obtain ⟨a, hi, -⟩ := step_waitIn hr h ht
    exact ⟨a, hi⟩
  · rw [step_of_fetchInstr_ok hr hi] at h
    cases h
    rfl
  · obtain ⟨_, -, rfl⟩ := step_waitIn hr h ht
    rfl

end Sys2Proof.Machine
end

section
/-! HALT and NOOP (41_halt_noop.md R140, R141). -/

namespace Sys2Proof.Machine

/-- Settles O11: HALT commits the state it runs in, with no effect but the halt (R140). -/
theorem haltEndsTheRun : Obligations.HaltEndsTheRun :=
  ⟨rfl, fun s => commit_halt s s⟩

/-- Settles O12: NOOP commits the state it runs in, going on at the next word (R141). -/
theorem noopOnlyAdvances : Obligations.NoopOnlyAdvances :=
  ⟨rfl, fun s => commit_goOn s s (s.pc + 1)⟩

end Sys2Proof.Machine
end

section
/-! SET, PUSH and POP (42_move_stack.md R150 to R152). -/

namespace Sys2Proof.Machine

open Sys2Proof.Claims

variable {s : State}

/-- A word without a value raises INVALID_OPERAND, recording where it stood (R97). -/
theorem resolve_of_valueOf_none {w : Word} (addr : Nat) (h : valueOf s w = none) :
    resolve s w addr = .error ⟨.invalidOperand, addr, w⟩ := by
  cases hr : resolve s w addr with
  | ok v => simp [valueOf_of_resolve_ok hr] at h
  | error f => rw [(resolve_error_iff.1 hr).2]

/-- A fault on the operand word at slot k records the 16-bit address pc + k. -/
theorem enterFault_invalidOperand_slot (s : State) (k : Nat) (w : Word) :
    s.enterFault ⟨.invalidOperand, s.slot k, w⟩ = faultedAt s 2 (s.pc + BitVec.ofNat 16 k) w := by
  rw [State.enterFault, State.slot, BitVec.ofNat_add, BitVec.ofNat_toNat, BitVec.setWidth_eq]
  rfl

/-- An instruction that resolves a word without a value, at slot k, faults there whatever comes after. -/
theorem commit_resolve_of_valueOf_none {w : Word} (k : Nat) (g : Word → Effect) (h : valueOf s w = none) :
    commit s (resolve s w (s.slot k) >>= g) = .next (faultedAt s 2 (s.pc + BitVec.ofNat 16 k) w) := by
  rw [resolve_of_valueOf_none _ h, error_bind, commit_error, enterFault_invalidOperand_slot]

/-- An instruction that ends by writing `v` through a slot in memory delivers it there and goes on at `p`. -/
theorem commit_writeThrough_of_lt (s : State) {u : State} {slot : Nat} (v p : Word) (h : slot < u.memLimit.toNat) :
    commit s (writeThrough u v slot >>= fun t => pure (t, .goOn p)) = .next ((delivered u v slot).setPc p) := by
  rw [writeThrough_of_lt v h]
  rfl

/-- Settles O13: b is resolved at slot 2, then its value is written through slot 1. -/
theorem setCopiesItsSource : Obligations.SetCopiesItsSource := by
  refine fun a b s => ⟨rfl, fun v hv hslot => ?_, commit_resolve_of_valueOf_none 2 _⟩
  rw [exec, execSet, resolve_eq_ok_iff.2 hv, ok_bind]
  exact commit_writeThrough_of_lt s v _ hslot

/-- Settles O15: the top entry is written through slot 1 from the state that has lost it. -/
theorem popWritesTheTop : Obligations.PopWritesTheTop := by
  refine fun a s => ⟨rfl, fun v st hs hslot => ?_, fun hs => ?_⟩
  · rw [exec, execPop, pop_of_cons hs]
    exact commit_writeThrough_of_lt s (u := s.setStack st) v _ hslot
  · rw [exec, execPop, pop_of_nil hs]
    rfl

/-- Settles O14: a is resolved at slot 1 before its value is pushed, so a bad operand faults first. -/
theorem pushAddsToTheStack : Obligations.PushAddsToTheStack := by
  refine fun a s => ⟨rfl, fun v hv hroom => ?_, commit_resolve_of_valueOf_none 1 _, fun v hv hfull => ?_⟩
  · rw [exec, execPush, resolve_eq_ok_iff.2 hv, ok_bind, push_of_room v hroom]
    rfl
  · rw [exec, execPush, resolve_eq_ok_iff.2 hv, ok_bind, push_of_full v hfull]
    rfl

end Sys2Proof.Machine
end

section
/-! The three-operand rules that have no fault of their own, and EQ and GT among them (43_compare.md R170, R171). -/

namespace Sys2Proof.Machine

open Sys2Proof.Claims

variable {f : Word → Word → Except FaultInfo Word} {b c vb vc : Word} {s : State}

/-- With a value for each operand, a result and its slot in memory, the result is delivered and the run goes on. -/
theorem binaryOp_of_values {r : Word} (hb : valueOf s b = some vb) (hc : valueOf s c = some vc) (hf : f vb vc = .ok r)
    (hslot : SlotThere s 1) : binaryOp f b c s = .next ((delivered s r (s.slot 1)).setPc (s.pc + 4)) := by
  rw [binaryOp, resolve_eq_ok_iff.2 hb, ok_bind, resolve_eq_ok_iff.2 hc, ok_bind, hf, ok_bind]
  exact commit_writeThrough_of_lt s r _ hslot

/-- The first operand is resolved first: without a value it faults whatever the second one is. -/
theorem binaryOp_of_left_none (hb : valueOf s b = none) : binaryOp f b c s = .next (faultedAt s 2 (s.pc + 2) b) :=
  commit_resolve_of_valueOf_none 2 _ hb

/-- The second operand is resolved before anything is computed, so a word without a value faults whatever `f` is. -/
theorem binaryOp_of_right_none (hb : valueOf s b = some vb) (hc : valueOf s c = none) :
    binaryOp f b c s = .next (faultedAt s 2 (s.pc + 3) c) := by
  rw [binaryOp, resolve_eq_ok_iff.2 hb, ok_bind]
  exact commit_resolve_of_valueOf_none 3 _ hc

/-- An instruction that runs as the common part with a total `g` obeys the rule of `g`. -/
theorem binaryRule_of_exec {i : Word → Word → Word → Instr} {code : Word} {g : Word → Word → Word}
    (hencode : ∀ a b c, encode (i a b c) = [code, a, b, c])
    (hexec : ∀ a b c s, exec (i a b c) s = binaryOp (fun x y => .ok (g x y)) b c s) : BinaryRule i code g := by
  intro a b c s
  rw [hexec]
  exact ⟨hencode a b c, fun _ _ hb hc => binaryOp_of_values hb hc rfl, binaryOp_of_left_none,
    fun _ => binaryOp_of_right_none⟩

theorem truthWord_decide (p : Prop) [Decidable p] : truthWord (decide p) = if p then 1 else 0 := by
  simp only [truthWord, decide_eq_true_eq]

/-- Settles O16: EQ is the common part with the truth word of equality. -/
theorem eqWritesEquality : Obligations.EqWritesEquality :=
  binaryRule_of_exec (fun _ _ _ => rfl) fun _ _ _ _ => by
    simp only [exec, execEq, beq_eq_decide, truthWord_decide]

/-- Settles O17: GT is the common part with the truth word of the strict unsigned order. -/
theorem gtWritesGreater : Obligations.GtWritesGreater :=
  binaryRule_of_exec (fun _ _ _ => rfl) fun _ _ _ _ => by
    simp only [exec, execGt, truthWord_decide, gt_iff_lt]

end Sys2Proof.Machine
end

section
/-! JMP, JT, JF, CALL and RET (44_control.md R180 to R185). -/

namespace Sys2Proof.Machine

open Sys2Proof.Claims

variable {s : State} {a b c t : Word} {g : Word → Bool}

/-- With a value for each operand, the condition value alone picks the next pc. -/
theorem branchOn_of_values (ha : valueOf s a = some c) (hb : valueOf s b = some t) :
    branchOn g a b s = .next (s.setPc (if g c then t else s.pc + 3)) := by
  rw [branchOn, resolve_eq_ok_iff.2 ha, ok_bind, resolve_eq_ok_iff.2 hb, ok_bind]
  exact commit_goOn s s _

/-- The target is resolved whether or not the jump is taken (R100), so a word without a value faults for every `g`. -/
theorem branchOn_of_target_none (ha : valueOf s a = some c) (hb : valueOf s b = none) :
    branchOn g a b s = .next (faultedAt s 2 (s.pc + 2) b) := by
  rw [branchOn, resolve_eq_ok_iff.2 ha, ok_bind]
  exact commit_resolve_of_valueOf_none 2 _ hb

/-- An instruction that runs as a conditional jump on `g` obeys the rule of the condition that `g` decides. -/
theorem branchRule_of_exec {i : Word → Word → Instr} {code : Word} {taken : Word → Prop}
    (hencode : ∀ a b, encode (i a b) = [code, a, b]) (hexec : ∀ a b s, exec (i a b) s = branchOn g a b s)
    (hg : ∀ c, g c = true ↔ taken c) : BranchRule i code taken := by
  intro a b s
  rw [hexec]
  refine ⟨hencode a b, fun c t ha hb hc => ?_, fun c t ha hb hc => ?_, commit_resolve_of_valueOf_none 1 _,
    fun _ => branchOn_of_target_none⟩
  · rw [branchOn_of_values ha hb, if_pos ((hg c).2 hc)]
    rfl
  · rw [branchOn_of_values ha hb, if_neg fun h => hc ((hg c).1 h)]
    rfl

theorem isNonZero_iff {c : Word} : isNonZero c = true ↔ c ≠ 0 := bne_iff_ne

/-- Settles O19: JT is the conditional jump on the non-zero test (R181). -/
theorem jtJumpsWhenNonZero : Obligations.JtJumpsWhenNonZero :=
  branchRule_of_exec (fun _ _ => rfl) (fun _ _ _ => rfl) fun _ => isNonZero_iff

/-- Settles O20: JF is the conditional jump on the failure of the non-zero test (R182). -/
theorem jfJumpsWhenZero : Obligations.JfJumpsWhenZero :=
  branchRule_of_exec (fun _ _ => rfl) (fun _ _ _ => rfl) fun c => by
    rw [Bool.not_eq_true', ← Bool.not_eq_true, isNonZero_iff, not_not]

/-- Settles O18: the value of a is the next pc, and nothing compares it with N (R180). -/
theorem jmpGoesToItsTarget : Obligations.JmpGoesToItsTarget := by
  refine fun a s => ⟨rfl, fun t ht => ?_, commit_resolve_of_valueOf_none 1 _⟩
  rw [exec, execJmp, resolve_eq_ok_iff.2 ht, ok_bind]
  exact commit_goOn s s t

/-- CALL without a fault: the return address is on top, and the run goes on at the target (R183). -/
theorem exec_call_of_room (ha : valueOf s a = some t) (hroom : StackHasRoom s) :
    exec (.call a) s = .next ((s.setStack ((s.pc + 2) :: s.stack)).setPc t) := by
  rw [exec, execCall, resolve_eq_ok_iff.2 ha, ok_bind, push_of_room _ hroom, ok_bind]
  exact commit_goOn s _ t

/-- Settles O21: a is resolved at slot 1 before the push, so a bad target faults first and a full stack second (R183). -/
theorem callPushesTheReturnAddress : Obligations.CallPushesTheReturnAddress := by
  refine fun a s => ⟨rfl, fun t => exec_call_of_room, commit_resolve_of_valueOf_none 1 _, fun t ht hfull => ?_⟩
  rw [exec, execCall, resolve_eq_ok_iff.2 ht, ok_bind, push_of_full _ hfull, error_bind]
  exact commit_error s _

/-- RET with a top entry: it is taken off, and the run goes on at it (R184). -/
theorem exec_ret_of_cons {st : List Word} (h : s.stack = t :: st) :
    exec .ret s = .next ((s.setStack st).setPc t) := by
  rw [exec, execRet, pop_of_cons h]
  exact commit_goOn s _ t

/-- Settles O22: RET is a Pop whose entry is the next pc, and a halt when there is none to pop (R184). -/
theorem retGoesToTheTop : Obligations.RetGoesToTheTop := by
  refine ⟨rfl, fun s => ⟨fun t st => exec_ret_of_cons, fun h => ?_⟩⟩
  rw [exec, execRet, pop_of_nil h]
  exact commit_halt s s

/-- Settles O52: CALL leaves its return address on top of the caller's stack, and that is what RET goes to (R185). -/
theorem callThenRetReturns : Obligations.CallThenRetReturns := by
  intro s t u a target ha hroom hcall hstack
  have htop : u.stack = (s.pc + 2) :: s.stack := by
    rw [exec_call_of_room ha hroom] at hcall
    cases hcall
    exact hstack
  exact exec_ret_of_cons htop

end Sys2Proof.Machine
end

section
/-! ADD, MULT, MOD, AND, OR and NOT (45_alu.md R200 to R205). -/

namespace Sys2Proof.Machine

open Sys2Proof.Claims

variable {f : Word → Word → Except FaultInfo Word} {b c vb vc : Word} {s : State}

/-- Settles O23: ADD is the common part with the reduced sum (R200). -/
theorem addWritesTheSum : Obligations.AddWritesTheSum :=
  binaryRule_of_exec (fun _ _ _ => rfl) fun _ _ _ _ => rfl

/-- Settles O24: MULT is the common part with the reduced product (R201). -/
theorem multWritesTheProduct : Obligations.MultWritesTheProduct :=
  binaryRule_of_exec (fun _ _ _ => rfl) fun _ _ _ _ => rfl

/-- Settles O26: AND is the common part with the bitwise and (R203). -/
theorem andWritesTheConjunction : Obligations.AndWritesTheConjunction :=
  binaryRule_of_exec (fun _ _ _ => rfl) fun _ _ _ _ => rfl

/-- Settles O27: OR is the common part with the bitwise or (R204). -/
theorem orWritesTheDisjunction : Obligations.OrWritesTheDisjunction :=
  binaryRule_of_exec (fun _ _ _ => rfl) fun _ _ _ _ => rfl

/-- A fault of the computation itself comes after both operands have been resolved. -/
theorem binaryOp_of_error {e : FaultInfo} (hb : valueOf s b = some vb) (hc : valueOf s c = some vc)
    (hf : f vb vc = .error e) : binaryOp f b c s = .next (s.enterFault e) := by
  rw [binaryOp, resolve_eq_ok_iff.2 hb, ok_bind, resolve_eq_ok_iff.2 hc, ok_bind, hf, error_bind]
  exact commit_error s e

theorem aluMod_of_ne_zero (x : Word) {y : Word} (h : y ≠ 0) :
    aluMod x y = .ok (BitVec.ofNat 16 (x.toNat % y.toNat)) := if_neg h

theorem aluMod_zero (x : Word) : aluMod x 0 = .error ⟨.divZero, 0, 0⟩ := if_pos rfl

/-- Settles O25: MOD is the common part with the remainder, whose own fault is the zero divisor's (R202). -/
theorem modWritesTheRemainder : Obligations.ModWritesTheRemainder := by
  intro a b c s
  rw [exec, execMod]
  exact ⟨rfl, fun vb _ hb hc hne => binaryOp_of_values hb hc (aluMod_of_ne_zero vb hne), binaryOp_of_left_none,
    fun _ => binaryOp_of_right_none, fun vb hb hc => binaryOp_of_error hb hc (aluMod_zero vb)⟩

/-- The complement of the low 15 bits subtracts them from 32767: the mask keeps the remainder modulo 2^15 of 65535 - x. -/
theorem aluNot_eq_ofNat_sub (x : Word) : aluNot x = BitVec.ofNat 16 (32767 - x.toNat % 32768) := by
  have hmask : (~~~x).toNat &&& 32767 = (65535 - x.toNat) % 32768 := by
    rw [BitVec.toNat_not]
    exact Nat.and_two_pow_sub_one_eq_mod _ 15
  apply BitVec.eq_of_toNat_eq
  rw [aluNot, BitVec.toNat_and]
  refine hmask.trans ?_
  rw [BitVec.toNat_ofNat]
  omega

/-- Settles O28: b is resolved at slot 2, then the complement of its value is written through slot 1 (R205). -/
theorem notWritesTheComplement : Obligations.NotWritesTheComplement := by
  refine fun a b s => ⟨rfl, fun vb hb hslot => ?_, commit_resolve_of_valueOf_none 2 _⟩
  rw [exec, execNot, resolve_eq_ok_iff.2 hb, ok_bind, aluNot_eq_ofNat_sub]
  exact commit_writeThrough_of_lt s _ _ hslot

end Sys2Proof.Machine
end

section
/-! RMEM and WMEM (46_memory_ops.md R230, R231). -/

namespace Sys2Proof.Machine

open Sys2Proof.Claims

variable {s : State}

/-- A fault at a 16-bit address records that address whole. -/
theorem enterFault_toNat (s : State) (k : FaultKind) (addr w : Word) :
    s.enterFault ⟨k, addr.toNat, w⟩ = faultedAt s k.code addr w := by
  rw [State.enterFault, BitVec.ofNat_toNat, BitVec.setWidth_eq]
  rfl

/-- An instruction whose effect is a fault at a 16-bit address, whatever was to come after. -/
theorem commit_error_bind_toNat {α : Type} (s : State) (k : FaultKind) (addr w : Word) (g : α → Effect) :
    commit s (.error ⟨k, addr.toNat, w⟩ >>= g) = .next (faultedAt s k.code addr w) := by
  rw [error_bind, commit_error, enterFault_toNat]

/-- Settles O29: b is resolved at slot 2, then the cell at its value is read, then the word found there is resolved as
standing at that cell; each of the three can fault, in this order, before the value is written through slot 1 (R230). -/
theorem rmemReadsAndResolves : Obligations.RmemReadsAndResolves := by
  refine fun a b s => ⟨rfl, fun addr v hb hN hv hslot => ?_, commit_resolve_of_valueOf_none 2 _, fun addr hb hN => ?_,
    fun addr hb hN hv => ?_⟩ <;> rw [exec, execRmem, resolve_eq_ok_iff.2 hb, ok_bind]
  · rw [memRead_of_lt hN, ok_bind, resolve_eq_ok_iff.2 hv, ok_bind]
    exact commit_writeThrough_of_lt s v _ hslot
  · rw [memRead_of_le hN]
    exact commit_error_bind_toNat s .memRange addr 0 _
  · rw [memRead_of_lt hN, ok_bind, resolve_of_valueOf_none _ hv]
    exact commit_error_bind_toNat s .invalidOperand addr _ _

/-- Settles O30: a is resolved at slot 1, then b at slot 2, and only then is the address held against N (R231). -/
theorem wmemWritesThrough : Obligations.WmemWritesThrough := by
  refine fun a b s => ⟨rfl, fun addr v => exec_wmem_of_values, commit_resolve_of_valueOf_none 1 _,
    fun addr ha hb => ?_, fun addr v ha hb hN => ?_⟩ <;> rw [exec, execWmem, resolve_eq_ok_iff.2 ha, ok_bind]
  · exact commit_resolve_of_valueOf_none 2 _ hb
  · rw [resolve_eq_ok_iff.2 hb, ok_bind, writeThrough_error_iff.2 ⟨hN, rfl⟩]
    exact commit_error_bind_toNat s .memRange addr 0 _

end Sys2Proof.Machine
end

section
/-! OUT, IN and the host's response that completes an IN (47_io.md R240, R241). -/

namespace Sys2Proof.Machine

open Sys2Proof.Claims

variable {s : State}

/-- Settles O31: a is resolved at slot 1, and any value it has is emitted (R240). -/
theorem outEmitsItsValue : Obligations.OutEmitsItsValue := by
  refine fun a s => ⟨rfl, fun v hv => ?_, commit_resolve_of_valueOf_none 1 _⟩
  rw [exec, execOut, resolve_eq_ok_iff.2 hv, ok_bind]
  exact commit_goOn s (s.emit v) _

/-- A waiting machine takes the host's next action, from the state whose list has lost it (R120). -/
theorem step_of_host_action {a : HostAction} {q : List HostAction} (hr : s.runState = .waitIn)
    (hq : s.hostQueue = a :: q) : step s = hostAct a (s.setQueue q) := by
  simp only [step, hr, hostTurn, hq]

/-- With slot 1 in memory, a character is delivered through the word that stands there now (R241). -/
theorem completeChar_of_slotThere (v : Word) (h : SlotThere s 1) :
    completeChar v s = .next (((delivered s v (s.slot 1)).setRunState .running).setPc (s.pc + 2)) := by
  rw [completeChar, writeThrough_of_lt (slot := s.slot 1) v h, ok_bind]
  exact commit_goOn s _ _

/-- Settles O32: the engine's step of IN only waits, and each response is the host's turn on the waiting machine (R241). -/
theorem inWaitsAndIsCompleted : Obligations.InWaitsAndIsCompleted := by
  refine fun a s => ⟨rfl, commit_wait s s, fun v q hr hq hslot => ?_, fun q => step_of_host_action,
    fun q => step_of_host_action, fun q => step_of_host_action⟩
  rw [step_of_host_action hr hq]
  exact completeChar_of_slotThere v hslot

end Sys2Proof.Machine
end

section
/-! How a run ends gracefully, and what the host does to a waiting machine (60_exceptions.md R272, R281, R282). -/

namespace Sys2Proof.Machine

variable {s t : State}

/-- Every action of the host ends the wait and leaves the list of its further actions alone: the machine runs on, is
FAULTED, or on Terminate is HALTED with nothing else changed. -/
theorem hostAct_ends_wait {a : HostAction} (h : hostAct a s = .next t) :
    t.hostQueue = s.hostQueue ∧ (t.runState = .running ∨ t.runState = .faulted ∨
      (a = .respond .terminate ∧ t = s.setRunState .halted)) := by
  rcases hostAct_cases h with ⟨v, -, hc⟩ | ⟨-, rfl⟩ | ⟨ha, rfl⟩ | ⟨-, rfl⟩ | ⟨-, rfl⟩ | ⟨_, _, _, _, -, -, -, rfl⟩
  · rcases completeChar_cases hc with ⟨f, rfl, -⟩ | ⟨u, hu, rfl⟩
    · exact ⟨rfl, .inr (.inl rfl)⟩
    · obtain ⟨_, _, rfl⟩ := writeThrough_frame hu
      exact ⟨rfl, .inl rfl⟩
  · exact ⟨rfl, .inl rfl⟩
  · exact ⟨rfl, .inr (.inr ⟨ha, rfl⟩)⟩
  · exact ⟨rfl, .inr (.inl rfl)⟩
  · exact ⟨rfl, .inl rfl⟩
  · exact ⟨rfl, .inl rfl⟩

/-- Settles O43: the host's turn on a waiting machine is its next action, run on the state whose list has lost it. -/
theorem hostActsOnAWaitingMachine : Obligations.HostActsOnAWaitingMachine := by
  refine ⟨fun s q hr => ⟨step_of_host_action hr, step_of_host_action hr, fun a0 v0 a1 v1 hq h0 h1 => ?_,
    fun a0 v0 a1 v1 hq hN => ?_⟩, fun s t hr h => ?_, fun s => ⟨fun hr => if_pos hr, fun hr => if_neg hr⟩⟩
  · rw [step_of_host_action hr hq]
    exact if_pos ⟨h0, h1⟩
  · rw [step_of_host_action hr hq]
    exact if_neg fun hlt => hN.elim (not_le.2 hlt.1) (not_le.2 hlt.2)
  · rcases step_cases h with ⟨hrun, -⟩ | ⟨hrun, -⟩ | ⟨-, a, q, hq, ha⟩
    · cases hrun.symm.trans hr
    · cases hrun.symm.trans hr
    · obtain ⟨hqueue, hend⟩ := hostAct_ends_wait ha
      refine ⟨?_, a, by rw [hq, hqueue, State.setQueue_hostQueue]⟩
      rcases hend with ht | ht | ⟨-, rfl⟩
      · simp [ht]
      · simp [ht]
      · simp

/-- An instruction of a RUNNING machine that ends the run gracefully is HALT, or RET with an empty stack, and changes
nothing but run_state. -/
theorem exec_halted {i : Instr} (hr : s.runState = .running) (h : exec i s = .next t) (ht : t.runState = .halted) :
    (i = .halt ∨ i = .ret ∧ s.stack = []) ∧ t = s.setRunState .halted := by
  rcases exec_runState_cases h with ⟨_, rfl⟩ | he | hend | ⟨_, -, rfl⟩
  · cases ht
  · cases (hr.symm.trans he.symm).trans ht
  · exact hend
  · cases ht

/-- A step that ends in HALTED executed HALT, or RET on an empty stack, or took the host's Terminate, and changed nothing
but run_state and the host's list. -/
theorem step_halted (h : step s = .next t) (ht : t.runState = .halted) :
    (∃ q, t = (s.setQueue q).setRunState .halted) ∧
    ((s.runState = .running ∧ fetchInstr s = .ok .halt) ∨
      (s.runState = .running ∧ fetchInstr s = .ok .ret ∧ s.stack = []) ∨
      (s.runState = .waitIn ∧ ∃ q, s.hostQueue = .respond .terminate :: q)) := by
  rcases step_cases h with ⟨hr, i, hi, he⟩ | ⟨-, f, -, rfl⟩ | ⟨hr, a, q, hq, ha⟩
  · obtain ⟨rfl | ⟨rfl, hs⟩, rfl⟩ := exec_halted hr he ht
    · exact ⟨⟨s.hostQueue, rfl⟩, .inl ⟨hr, hi⟩⟩
    · exact ⟨⟨s.hostQueue, rfl⟩, .inr (.inl ⟨hr, hi, hs⟩)⟩
  · cases ht
  · rcases (hostAct_ends_wait ha).2 with hrun | hf | ⟨rfl, rfl⟩
    · cases hrun.symm.trans ht
    · cases hf.symm.trans ht
    · exact ⟨⟨q, rfl⟩, .inr (.inr ⟨hr, q, hq⟩)⟩

/-- Settles O46: a step that ends in HALTED is one of the three, and each of the three answers HALTED. -/
theorem gracefulEndInExactlyThreeCases : Obligations.GracefulEndInExactlyThreeCases := by
  intro s t h
  refine ⟨⟨fun ht => (step_halted h ht).2, ?_⟩, fun ht => ?_⟩
  · rintro (⟨hr, hi⟩ | ⟨hr, hi, hs⟩ | ⟨hr, q, hq⟩)
    · rw [step_of_fetchInstr_ok hr hi, haltEndsTheRun.2] at h
      cases h
      rfl
    · rw [step_of_fetchInstr_ok hr hi, (retGoesToTheTop.2 s).2 hs] at h
      cases h
      rfl
    · rw [step_of_host_action hr hq] at h
      cases h
      rfl
  · obtain ⟨⟨q, rfl⟩, -⟩ := step_halted h ht
    exact ⟨rfl, rfl, rfl, rfl⟩

end Sys2Proof.Machine
end

section
/-! Which instruction raises which fault (60_exceptions.md R261 to R267). -/

namespace Sys2Proof.Machine

variable {s t : State}

/-- An instruction of a RUNNING machine that ends in FAULTED took one of its own faults. -/
theorem exec_faultOf {i : Instr} (hr : s.runState = .running) (h : exec i s = .next t) (ht : t.runState = .faulted) :
    ∃ f, t = s.enterFault f ∧ FaultOf i s f := by
  have hrun : s.runState ≠ .faulted := by simp [hr]
  rcases exec_cases h with hf | ⟨u, _, _, _, _, hu, -, hw, rfl, -⟩ | ⟨_, rfl, -⟩ | ⟨_, _, _, -, -, rfl, -⟩ |
    ⟨_, _, -, -, rfl⟩ | ⟨_, _, _, -, rfl⟩ | ⟨-, rfl⟩ | ⟨-, -, rfl⟩ | ⟨_, -, rfl⟩
  · exact hf
  · have hus : u.runState = s.runState := by rcases hu with rfl | ⟨_, _, -, -, rfl⟩ <;> rfl
    exact absurd (hus.symm.trans ((writeThrough_runState hw).symm.trans ht)) hrun
  · exact absurd ht hrun
  · exact absurd ht hrun
  · exact absurd ht hrun
  · exact absurd ht hrun
  · cases ht
  · cases ht
  · cases ht

/-- Settles O48: the code a fault records is that of its kind, and the faults of each kind say which instruction they are
of. -/
theorem faultsComeFromTheirInstructions : Obligations.FaultsComeFromTheirInstructions := by
  intro i s t hr h ht
  obtain ⟨f, rfl, hf⟩ := exec_faultOf hr h ht
  rcases hf with ⟨w, hw, k, -, -, hgt, rfl⟩ | ⟨a, hi, -, -, rfl⟩ | ⟨a, x, y, hi, ha, hgt, rfl⟩ | ⟨hle, rfl⟩ |
    ⟨x, hi, rfl⟩ | ⟨x, y, z, hi, rfl⟩ | ⟨x, hi, rfl⟩
  · simp [FaultKind.code, hgt, hw]
  · simp [FaultKind.code, hi]
  · have ha' : a < 65536 := ha.trans s.memLimit.isLt
    simp [FaultKind.code, hgt, hi, Nat.mod_eq_of_lt ha']
  · have hslot : ¬ Claims.SlotThere s 1 := not_lt.2 hle
    simp [FaultKind.code, hslot]
  · simp [FaultKind.code, hi]
  · simp [FaultKind.code, hi]
  · have hpusher : ∃ a, i = .push a ∨ i = .call a := ⟨x, hi⟩
    simpa [FaultKind.code] using hpusher

end Sys2Proof.Machine
end

section
/-! What an ended run shows (60_exceptions.md R260, R269, R273, R274). -/

namespace Sys2Proof.Machine

variable {s : State}

theorem exitStatus_eq_zero_iff {failStatus : Config.FailStatus} {r : RunState} :
    exitStatus failStatus r = some 0 ↔ r = .halted := by
  cases r <;> simp [exitStatus, failStatus.2]

theorem exitStatus_eq_failStatus_iff {failStatus : Config.FailStatus} {r : RunState} :
    exitStatus failStatus r = some failStatus.val ↔ r = .faulted := by
  cases r <;> simp [exitStatus, failStatus.2.symm]

/-- A code that has a kind is that kind's code (R260). -/
theorem code_of_kindOfCode {c : BitVec 3} {k : FaultKind} (h : kindOfCode c = some k) : k.code = c := by
  revert c k
  decide

theorem FaultKind.setsAddr_iff (k : FaultKind) : k.setsAddr = true ↔ k.code = 1 ∨ k.code = 2 ∨ k.code = 4 := by
  cases k <;> decide

theorem FaultKind.setsValue_iff (k : FaultKind) : k.setsValue = true ↔ k.code = 1 ∨ k.code = 2 := by
  cases k <;> decide

/-- A record that fits its kind has a kind, and its fault_pc is the pc. -/
theorem State.recordFits_kind (h : s.recordFits = true) : s.faultPc = s.pc ∧ ∃ k, kindOfCode s.faultCode = some k := by
  obtain ⟨hpc, hkind⟩ := Bool.and_eq_true_iff.1 h
  refine ⟨eq_of_beq hpc, ?_⟩
  cases hk : kindOfCode s.faultCode with
  | none => simp [hk] at hkind
  | some k => exact ⟨k, rfl⟩

theorem State.Inv.recordFits (h : s.Inv) (hr : s.runState = .faulted) : s.recordFits = true := by
  obtain ⟨-, -, -, -, -, hfits, -⟩ := h
  exact hfits hr

theorem diagnostic_of_faulted {k : FaultKind} (hr : s.runState = .faulted) (hk : kindOfCode s.faultCode = some k) :
    diagnostic s = some
      { kind := k, faultPc := s.faultPc, faultAddr := if k.setsAddr then some s.faultAddr else none,
        faultValue := if k.setsValue then some s.faultValue else none } := by
  simp only [diagnostic, hr, hk]

theorem diagnostic_of_halted (hr : s.runState = .halted) : diagnostic s = none := by
  simp only [diagnostic, hr]

theorem observe_isSome_iff : (observe s).isSome = true ↔ s.Finished :=
  Option.isSome_ite

/-- Settles O42: a record that the invariant allows has a kind, and that kind's code says which fields it sets. -/
theorem endedRunsAreObserved : Obligations.EndedRunsAreObserved := by
  intro s failStatus
  refine ⟨exitStatus_eq_zero_iff, exitStatus_eq_failStatus_iff, observe_isSome_iff, fun o ho => ?_⟩
  obtain ⟨-, hshown⟩ := Option.ite_none_right_eq_some.1 ho
  obtain rfl := Option.some.inj hshown
  refine ⟨rfl, rfl, rfl, rfl, rfl, rfl, diagnostic_of_halted, fun hs hr => ?_⟩
  obtain ⟨hpc, k, hk⟩ := State.recordFits_kind (hs.recordFits hr)
  refine ⟨_, diagnostic_of_faulted hr hk, code_of_kindOfCode hk, rfl, hpc, ?_, ?_⟩
  · simp only [FaultKind.setsAddr_iff, code_of_kindOfCode hk]
  · simp only [FaultKind.setsValue_iff, code_of_kindOfCode hk]

end Sys2Proof.Machine
end

section
/-! The host's coming actions have no part in a step of a RUNNING machine (20_memory.md R72; 60_exceptions.md R281;
70_reset_and_hazards.md R313). -/

namespace Sys2Proof.Machine

variable {s : State}

/-- A meaning that always answers a next state, and the same one but for the host's list whatever that list is. -/
def IgnoresQueue (f : State → Host.Outcome State Fault Refusal) (s : State) : Prop :=
  ∃ t, f s = .next t ∧ ∀ q, f (s.setQueue q) = .next (t.setQueue q)

/-- The outcome of an instruction rule with another host's list in its state. -/
def Effect.setQueue (q : List HostAction) (e : Effect) : Effect := (fun p => (p.1.setQueue q, p.2)) <$> e

/-- A commit passes the host's list on, so it is the outcome that has to ignore it. -/
theorem ignoresQueue_commit {e : State → Effect} (h : ∀ q, e (s.setQueue q) = (e s).setQueue q) :
    IgnoresQueue (fun s => commit s (e s)) s := by
  obtain ⟨t, ht⟩ := commit_is_next s (e s)
  refine ⟨t, ht, fun q => ?_⟩
  simp only [h]
  rcases commit_cases ht with ⟨f, he, rfl⟩ | ⟨u, p, he, rfl⟩ | ⟨u, he, rfl⟩ | ⟨u, he, rfl⟩ <;> rw [he] <;> rfl

variable (q : List HostAction)

@[simp] theorem State.setQueue_slot (k : Nat) : (s.setQueue q).slot k = s.slot k := rfl

@[simp] theorem State.setQueue_emit (v : Word) : (s.setQueue q).emit v = (s.emit v).setQueue q := rfl

@[simp] theorem State.setQueue_stackFull : (s.setQueue q).stackFull = s.stackFull := rfl

@[simp] theorem resolve_setQueue (w : Word) (addr : Nat) : resolve (s.setQueue q) w addr = resolve s w addr := rfl

@[simp] theorem memRead_setQueue (a : Nat) : memRead (s.setQueue q) a = memRead s a := rfl

@[simp] theorem memReads_setQueue (a n : Nat) : memReads (s.setQueue q) a n = memReads s a n := by
  induction n generalizing a with
  | zero => rfl
  | succ n ih => simp only [memReads, memRead_setQueue, ih]

@[simp] theorem fetchInstr_setQueue : fetchInstr (s.setQueue q) = fetchInstr s := by
  simp [fetchInstr]

@[simp] theorem memWrite_setQueue (a : Nat) (v : Word) :
    memWrite (s.setQueue q) a v = (·.setQueue q) <$> memWrite s a v := by
  rcases lt_or_ge a s.memLimit.toNat with h | h
  · rw [memWrite_of_lt v h, memWrite_of_lt (s := s.setQueue q) v h]
    rfl
  · rw [memWrite_of_le v h, memWrite_of_le (s := s.setQueue q) v h]
    rfl

@[simp] theorem writeThrough_setQueue (v : Word) (a : Nat) :
    writeThrough (s.setQueue q) v a = (·.setQueue q) <$> writeThrough s v a := by
  simp only [writeThrough, memRead_setQueue, map_bind]
  congr 1
  funext d
  cases classify d
  case register => rfl
  case literal | invalid => exact memWrite_setQueue q a v

@[simp] theorem push_setQueue (v : Word) : push (s.setQueue q) v = (·.setQueue q) <$> push s v := by
  unfold push
  rw [State.setQueue_stackFull]
  split <;> rfl

@[simp] theorem pop_setQueue : pop (s.setQueue q) = (fun p => (p.1, p.2.setQueue q)) <$> pop s := by
  unfold pop
  rw [State.setQueue_stack]
  cases s.stack <;> rfl

theorem ignoresQueue_binaryOp (f : Word → Word → Except FaultInfo Word) (b c : Src) (s : State) :
    IgnoresQueue (binaryOp f b c) s :=
  ignoresQueue_commit fun q => by simp [Effect.setQueue]

theorem ignoresQueue_branchOn (taken : Word → Bool) (a b : Src) (s : State) : IgnoresQueue (branchOn taken a b) s :=
  ignoresQueue_commit fun q => by simp [Effect.setQueue]

theorem ignoresQueue_execPop (s : State) : IgnoresQueue execPop s := by
  refine ignoresQueue_commit fun q => ?_
  rw [pop_setQueue]
  cases pop s with
  | none => rfl
  | some p => simp [Effect.setQueue]

theorem ignoresQueue_execRet (s : State) : IgnoresQueue execRet s := by
  cases hs : s.stack with
  | nil => exact ⟨_, (retGoesToTheTop.2 s).2 hs, fun q => (retGoesToTheTop.2 (s.setQueue q)).2 hs⟩
  | cons t st => exact ⟨_, (retGoesToTheTop.2 s).1 t st hs, fun q => (retGoesToTheTop.2 (s.setQueue q)).1 t st hs⟩

/-- No instruction looks at the host's list: each operation that answers a state passes the list on, and each that answers a
word does not see it. -/
theorem ignoresQueue_exec (i : Instr) (s : State) : IgnoresQueue (exec i) s := by
  cases i with
  | halt | noop | inp => exact ⟨_, rfl, fun _ => rfl⟩
  | ret => exact ignoresQueue_execRet s
  | pop => exact ignoresQueue_execPop s
  | add _ b c | mult _ b c | mod _ b c | and _ b c | or _ b c | eq _ b c | gt _ b c =>
    exact ignoresQueue_binaryOp _ b c s
  | jt a b | jf a b => exact ignoresQueue_branchOn _ a b s
  | set | push | jmp | not | rmem | wmem | call | out =>
    exact ignoresQueue_commit fun q => by simp [Effect.setQueue]

/-- Settles O10: the fetch does not look at the host's list, and neither does what it leads to. -/
theorem runningMachineAlwaysSteps : Obligations.RunningMachineAlwaysSteps := by
  intro s hr
  suffices h : IgnoresQueue step s from h
  cases hf : fetchInstr s with
  | ok i =>
    obtain ⟨t, ht, hq⟩ := ignoresQueue_exec i s
    refine ⟨t, (step_of_fetchInstr_ok hr hf).trans ht, fun q => ?_⟩
    rw [← hq q]
    exact step_of_fetchInstr_ok hr ((fetchInstr_setQueue q).trans hf)
  | error f =>
    exact ⟨_, step_of_fetchInstr_error hr hf, fun q => step_of_fetchInstr_error hr ((fetchInstr_setQueue q).trans hf)⟩

end Sys2Proof.Machine
end

section
/-! What a load answers, and the invariant after a load and a restore (70_reset_and_hazards.md R300 to R306). -/

namespace Sys2Proof.Machine

variable {image : List Byte} {depth : Config.StackDepth} {plans : List HostAction} {t : State}

theorem loadImage_of_even (heven : image.length % 2 = 0) (hlen : image.length / 2 ≤ 32768) :
    loadImage image depth plans = .ok { State.reset with
      mem := Memory.ofBytes 0 image, memLimit := BitVec.ofNat 16 (image.length / 2), stackDepth := depth,
      hostQueue := plans } := by
  rw [loadImage, if_neg (by omega), if_neg (not_lt.2 hlen)]

/-- The number of words of an image that is not too large is a 16-bit word. -/
theorem toNat_ofNat_words {n : Nat} (h : n ≤ 32768) : (BitVec.ofNat 16 n).toNat = n :=
  Nat.mod_eq_of_lt (by omega)

theorem wordOfBytes_toNat (lo hi : Byte) : (wordOfBytes lo hi).toNat = lo.toNat + 256 * hi.toNat := by
  have := lo.isLt
  have := hi.isLt
  exact Nat.mod_eq_of_lt (by omega)

/-- Word k of the memory made from an image holds the image's bytes 2k and 2k+1 (R67). -/
theorem Memory.word_ofBytes (image : List Byte) (k : Nat) :
    (Memory.ofBytes 0 image).word k = wordOfBytes (image.getD (2 * k) 0) (image.getD (2 * k + 1) 0) := by
  have hbyte : ∀ j, (Memory.ofBytes 0 image).byteAt j = image.getD j 0 := fun j => by
    simpa using Memory.byteAt_ofBytes image 0 j
  rw [Memory.word, hbyte, hbyte]

/-- Settles O38: a load is refused for its length alone, and what it does not take from the image is as at reset. -/
theorem loadGivesTheFreshReset : Obligations.LoadGivesTheFreshReset := by
  refine fun image depth plans => ⟨fun hodd => if_pos hodd, fun heven hlarge => ?_, fun heven hlen =>
    ⟨_, loadImage_of_even heven hlen, toNat_ofNat_words hlen, fun k _ => ?_, State.reset_reg, rfl, rfl, rfl, rfl, rfl, rfl,
      rfl⟩⟩
  · rw [loadImage, if_neg (by omega), if_pos hlarge]
  · exact (congrArg BitVec.toNat (Memory.word_ofBytes image k)).trans (wordOfBytes_toNat _ _)

/-- Settles O39: with N = 0 the opcode fetch at pc 0 is outside memory. -/
theorem emptyImageFaultsAtOnce : Obligations.EmptyImageFaultsAtOnce := fun _ _ =>
  ⟨_, loadImage_of_even rfl (Nat.zero_le _), rfl, opcodeFetchOutsideMemoryFaults _ rfl le_rfl⟩

theorem inv_of_loadImage (h : loadImage image depth plans = .ok t) :
    t.Inv ∧ t.runState = .running ∧ t.stackDepth = depth := by
  obtain ⟨heven, hlen, rfl⟩ := loadImage_cases h
  refine ⟨⟨Memory.wf_ofBytes image 0, fun c hc => ?_, ?_, ?_, fun _ => ⟨rfl, rfl, rfl, rfl⟩, ?_, ?_⟩, rfl, rfl⟩
  · have hkey := Memory.mem_ofBytes_lt image 0 c hc
    rw [toNat_ofNat_words hlen]
    omega
  · rwa [toNat_ofNat_words hlen]
  · cases depth <;> simp [State.StackFits, fitsDepth, State.reset]
  · simp [State.reset]
  · simp [State.reset]

theorem inv_of_restoreImage {snap : Snapshot} (h : restoreImage image snap depth plans = .ok t) :
    t.Inv ∧ t.runState = .running := by
  obtain ⟨u, regs, stack, pc, hload, hparts, rfl⟩ := restoreImage_cases h
  obtain ⟨hu, hrun, rfl⟩ := inv_of_loadImage hload
  have hfits : fitsDepth u.stackDepth stack.reverse.length = true := by
    rw [List.length_reverse]
    exact snapshotParts_fits hparts
  exact ⟨(hu.setStack hfits).setPc hrun pc, hrun⟩

/-- Settles O56: a loaded image meets the invariant, and a restored stack fits its depth. -/
theorem loadMeetsTheInvariant : Obligations.LoadMeetsTheInvariant := by
  rintro image snap depth plans t (h | h)
  · obtain ⟨ht, hrun, -⟩ := inv_of_loadImage h
    exact ⟨ht, hrun⟩
  · exact inv_of_restoreImage h

end Sys2Proof.Machine
end

section
/-! What a snapshot is, and what a restore makes of it (70_reset_and_hazards.md R302, R306). -/

namespace Sys2Proof.Machine

open Sys2Proof.Claims

variable {image : List Byte} {depth : Config.StackDepth} {plans : List HostAction} {t : State}

/-- A snapshot value that is in range is the value of its word. -/
theorem wordOfInt_eq_some_iff {n : Int} {w : Word} : wordOfInt n = some w ↔ n = asInt w := by
  have hw := w.isLt
  rw [wordOfInt, Option.ite_none_right_eq_some, Option.some_inj, ← BitVec.toNat_inj, BitVec.toNat_ofNat]
  simp only [asInt]
  omega

theorem wordsOfInts_cons_eq_some_iff {n : Int} {ns : List Int} {ws : List Word} :
    wordsOfInts (n :: ns) = some ws ↔ ∃ v vs, ws = v :: vs ∧ wordOfInt n = some v ∧ wordsOfInts ns = some vs := by
  rw [wordsOfInts]
  cases wordOfInt n with
  | none => simp
  | some v => cases wordsOfInts ns <;> simp [eq_comm]

/-- A list of snapshot values that are all in range lists the values of its words. -/
theorem wordsOfInts_eq_some_iff {ns : List Int} {ws : List Word} : wordsOfInts ns = some ws ↔ ns = ws.map asInt := by
  induction ns generalizing ws with
  | nil => cases ws <;> simp [wordsOfInts]
  | cons n ns ih =>
    simp only [wordsOfInts_cons_eq_some_iff, wordOfInt_eq_some_iff, ih]
    cases ws <;> simp

/-- The eight registers of a snapshot are the whole list (R302). -/
theorem regsOfList_eq_some_iff {ws : List Word} {regs : Vector Word 8} :
    regsOfList ws = some regs ↔ ws = regs.toList := by
  constructor
  · intro h
    unfold regsOfList at h
    split at h
    · cases h
      rfl
    · cases h
  · rintro rfl
    obtain ⟨⟨l⟩, hl⟩ := regs
    match l, hl with
    | [_, _, _, _, _, _, _, _], _ => rfl

theorem fitsDepth_iff {n : Nat} : fitsDepth depth n = true ↔ ∀ d, depth = some d → n ≤ d.val := by
  cases depth <;> simp [fitsDepth]

/-- A well-formed snapshot holds exactly its registers, a stack that fits, and its pc, each as an integer (R302, R306). -/
theorem snapshotParts_eq_some_iff {snap : Snapshot} {regs : Vector Word 8} {stack : List Word} {pc : Word} :
    snapshotParts depth snap = some (regs, stack, pc) ↔
      snap = ⟨some (regs.toList.map asInt), some (stack.map asInt), some (asInt pc)⟩ ∧
      fitsDepth depth stack.length = true := by
  obtain ⟨rs, st, p⟩ := snap
  simp only [snapshotParts, Option.bind_eq_bind, Option.bind_eq_some_iff, wordOfInt_eq_some_iff, wordsOfInts_eq_some_iff,
    regsOfList_eq_some_iff, Option.ite_none_right_eq_some, Snapshot.mk.injEq]
  constructor
  · rintro ⟨_, rfl, _, rfl, _, rfl, _, rfl, _, rfl, _, rfl, _, rfl, hfits, h⟩
    cases h
    exact ⟨⟨rfl, rfl, rfl⟩, hfits⟩
  · rintro ⟨⟨rfl, rfl, rfl⟩, hfits⟩
    exact ⟨_, rfl, _, rfl, _, rfl, _, rfl, _, rfl, _, rfl, _, rfl, hfits, rfl⟩

theorem restoreImage_of_load_error {e : LoadError} (snap : Snapshot) (h : loadImage image depth plans = .error e) :
    restoreImage image snap depth plans = .error e := by
  rw [restoreImage, h]
  rfl

theorem restoreImage_of_parts {snap : Snapshot} {regs : Vector Word 8} {stack : List Word} {pc : Word}
    (h : loadImage image depth plans = .ok t) (hparts : snapshotParts depth snap = some (regs, stack, pc)) :
    restoreImage image snap depth plans = .ok { t with regs := regs, stack := stack.reverse, pc := pc } := by
  rw [restoreImage, h, hparts]
  rfl

/-- A snapshot of which no well-formed reading exists is refused (R306). -/
theorem restoreImage_malformed {snap : Snapshot} (h : loadImage image depth plans = .ok t)
    (hbad : ∀ (regs : Vector Word 8) (stack : List Word) (pc : Word), fitsDepth depth stack.length = true →
      snap ≠ ⟨some (regs.toList.map asInt), some (stack.map asInt), some (asInt pc)⟩) :
    restoreImage image snap depth plans = .error .malformedSnapshot := by
  have hparts : snapshotParts depth snap = none := Option.eq_none_iff_forall_ne_some.2 fun ⟨regs, stack, pc⟩ hp => by
    obtain ⟨hsnap, hfits⟩ := snapshotParts_eq_some_iff.1 hp
    exact hbad regs stack pc hfits hsnap
  rw [restoreImage, h, hparts]
  rfl

theorem asInt_range (w : Word) : 0 ≤ asInt w ∧ asInt w ≤ 65535 := by
  have := w.isLt
  simp only [asInt]
  omega

theorem range_of_mem_map_asInt {n : Int} {ws : List Word} (h : n ∈ ws.map asInt) : 0 ≤ n ∧ n ≤ 65535 := by
  obtain ⟨w, -, rfl⟩ := List.mem_map.1 h
  exact asInt_range w

/-- Settles O40: each way to be malformed is one in which a well-formed snapshot is not. -/
theorem restoreTakesTheSnapshot : Obligations.RestoreTakesTheSnapshot := by
  refine fun image depth plans => ⟨fun snap e => restoreImage_of_load_error snap, fun t ht =>
    ⟨fun regs stack pc hfits => ?_, fun snap hmissing => ?_, fun snap rs hrs hlen => ?_,
      fun snap st d hst hd hdeep => ?_, fun snap n hn hin => ?_⟩⟩
  · exact restoreImage_of_parts ht (snapshotParts_eq_some_iff.2 ⟨rfl, fitsDepth_iff.2 hfits⟩)
  all_goals refine restoreImage_malformed ht ?_; rintro regs stack pc hfits rfl
  · simp at hmissing
  · obtain rfl := Option.some.inj hrs
    simp at hlen
  · obtain rfl := Option.some.inj hst
    have hle := fitsDepth_iff.1 hfits d hd
    rw [List.length_map] at hdeep
    omega
  · have hrange : 0 ≤ n ∧ n ≤ 65535 := by
      rcases hin with ⟨_, hrs, hmem⟩ | ⟨_, hst, hmem⟩ | hpc
      · obtain rfl := Option.some.inj hrs
        exact range_of_mem_map_asInt hmem
      · obtain rfl := Option.some.inj hst
        exact range_of_mem_map_asInt hmem
      · obtain rfl := Option.some.inj hpc
        exact asInt_range pc
    omega

end Sys2Proof.Machine
end

section
/-! A save and then a restore (20_memory.md R68; 70_reset_and_hazards.md R302, R303). -/

namespace Sys2Proof.Machine

theorem State.Inv.memoryInside {s : State} (h : s.Inv) : s.MemoryInside := h.2.1

theorem length_saveImage (s : State) : (saveImage s).length = 2 * s.memLimit.toNat := by
  simp [saveImage]

/-- The memory made from a saved image is the memory saved: its bytes below N are the image's, and it lists no others. -/
theorem Memory.ofBytes_saveImage {s : State} (h : s.Inv) : Memory.ofBytes 0 (saveImage s) = s.mem := by
  refine Memory.ext_byteAt (Memory.wf_ofBytes _ 0) h.mem_wf fun k => ?_
  rw [← Nat.zero_add k, Memory.byteAt_ofBytes, Nat.zero_add]
  by_cases hk : k < 2 * s.memLimit.toNat
  · simp [saveImage, hk]
  · have hzero : s.mem.byteAt k = 0 := Memory.byteAt_eq_zero_of_not_mem fun c hc hck => by
      have := h.memoryInside c hc
      omega
    simp [saveImage, hk, hzero]

theorem loadImage_saveImage {s : State} (h : s.Inv) (depth : Config.StackDepth) (plans : List HostAction) :
    loadImage (saveImage s) depth plans = .ok { State.reset with
      mem := s.mem, memLimit := s.memLimit, stackDepth := depth, hostQueue := plans } := by
  have hN : (saveImage s).length / 2 = s.memLimit.toNat := by
    rw [length_saveImage]
    omega
  rw [loadImage_of_even (by rw [length_saveImage]; omega) (hN ▸ h.memLimit_le), Memory.ofBytes_saveImage h, hN,
    BitVec.ofNat_toNat, BitVec.setWidth_eq]

theorem snapshotParts_saveSnapshot {s : State} (h : s.StackFits) :
    snapshotParts s.stackDepth (saveSnapshot s) = some (s.regs, s.stack.reverse, s.pc) :=
  snapshotParts_eq_some_iff.2 ⟨rfl, by rwa [List.length_reverse]⟩

/-- Settles O41: the saved image loads to the memory it was made from, and the saved snapshot is well formed. -/
theorem saveThenRestoreGivesTheState : Obligations.SaveThenRestoreGivesTheState := by
  intro s plans h
  rw [restoreImage_of_parts (loadImage_saveImage h s.stackDepth plans) (snapshotParts_saveSnapshot h.stackFits),
    List.reverse_reverse]

end Sys2Proof.Machine
end

section
/-! The life of a run (60_exceptions.md R281; 70_reset_and_hazards.md R307). -/

namespace Sys2Proof.Machine

/-- Settles O58: a session's load and restore are those of the image, where the session has them. -/
theorem loadAndRestoreComeBeforeARun : Obligations.LoadAndRestoreComeBeforeARun := by
  refine fun image snap depth plans s => ⟨fun t ht => ⟨?_, ?_⟩, fun t ht => ⟨?_, ?_⟩, fun hr => ?_, rfl, rfl⟩
  · rw [Session.load, ht]
    rfl
  · rintro rfl rfl
    refine ⟨?_, fun hend => ?_⟩
    · rw [Session.load, ht]
      rfl
    · rw [Session.load, if_pos hend, ht]
      rfl
  · rw [Session.restore, ht]
    rfl
  · rintro rfl rfl
    rw [Session.restore, ht]
    rfl
  · have hrun : ¬ s.Finished := by rcases hr with hr | hr <;> simp [State.Finished, hr]
    exact if_neg hrun

theorem State.Inv.recordClear {s : State} (h : s.Inv) (hr : s.runState ≠ .faulted) : s.RecordClear := by
  obtain ⟨-, -, -, -, hclear, -, -⟩ := h
  exact hclear hr

/-- What O59 says of one session. -/
structure Session.Sound (x : Session) : Prop where
  block : ∀ s, x.block = some s → s.Inv
  start : ∀ s, x = .loaded s → s.runState = .running ∧ s.RecordClear

theorem Session.sound_loaded {t : State} (h : t.Inv) (hr : t.runState = .running) : (Session.loaded t).Sound := by
  refine ⟨fun s hs => ?_, fun s hs => ?_⟩
  · obtain rfl := Option.some.inj hs
    exact h
  · cases hs
    exact ⟨hr, h.recordClear (by simp [hr])⟩

theorem Session.sound_run {t : State} (h : t.Inv) : (Session.run t).Sound := by
  refine ⟨fun s hs => ?_, fun _ hs => nomatch hs⟩
  obtain rfl := Option.some.inj hs
  exact h

/-- Settles O59, by induction on how the session is reached: a load and a restore start afresh, and a step keeps the
invariant (O57). -/
theorem everyReachedSessionMeetsTheInvariant : Obligations.EveryReachedSessionMeetsTheInvariant := by
  intro x hx
  suffices h : x.Sound from ⟨h.block, h.start⟩
  induction hx with
  | empty _ _ => exact ⟨fun _ hs => (nomatch hs), fun _ hs => (nomatch hs)⟩
  | load image _ hload _ =>
    obtain ⟨_, _, t, ht, rfl⟩ := Session.load_cases hload
    obtain ⟨hinv, hr, -⟩ := inv_of_loadImage ht
    exact Session.sound_loaded hinv hr
  | restore image snap _ hrestore _ =>
    obtain ⟨_, _, t, ht, rfl⟩ := Session.restore_cases hrestore
    obtain ⟨hinv, hr⟩ := inv_of_restoreImage ht
    exact Session.sound_loaded hinv hr
  | step _ hstep ih =>
    obtain ⟨s, t, hs, ht, rfl⟩ := Session.step_cases hstep
    exact Session.sound_run (everyStepKeepsTheInvariant s t (ih.block s hs) ht)

end Sys2Proof.Machine
end
